-- ==== Sys2Proof/Word.lean ====
section
/-! DEFINITION. The words of the block: bytes, the 16-bit words of the framebuffer and of the controller's graphics
RAM, the 40-bit command word (30_encoding.md R50) and the DATA field of a response (R52). -/

namespace Sys2Proof

/-- A byte: a framebuffer byte, a logical byte or a wire byte. Bit 0 is the least significant (00_scope.md R10). -/
abbrev Byte := BitVec 8

/-- A 16-bit word: one column group of one row (20_memory.md R31). -/
abbrev Word16 := BitVec 16

/-- The 40-bit command word of the command port (30_encoding.md R50). -/
abbrev Cmd := BitVec 40

/-- The 24-bit DATA field of a response (30_encoding.md R52). -/
abbrev Data := BitVec 24

/-- A row of the framebuffer, 0..63 (00_scope.md R6 HEIGHT, FLUSH_ROWS). -/
abbrev Row := Fin 64

/-- A column of the framebuffer, 0..127 (00_scope.md R6 WIDTH). -/
abbrev Column := Fin 128

/-- A column group of a row, 0..7 (00_scope.md R6 GROUPS). -/
abbrev Group := Fin 8

/-- A byte index of the framebuffer, 0..1023 (00_scope.md R6 FB_BYTES). -/
abbrev ByteIndex := Fin 1024

/-- A vertical address of the controller's graphics RAM, 0..31 (00_scope.md R6 V_MAX). -/
abbrev Vertical := Fin 32

/-- A horizontal word address of the controller's graphics RAM, 0..15 (00_scope.md R6 H_MAX). -/
abbrev Horizontal := Fin 16

end Sys2Proof
end

