-- ==== Sys2Proof/Config.lean ====
section
/-! DEFINITION. The parameters of an instance of the block (00_scope.md R7 to R9; configuration is not state,
10_state.md R20), and the free values: what the platform answers and what the spec leaves open. -/

namespace Sys2Proof

/-- What a `TxWrite` call that returns answers (00_scope.md R11). -/
inductive TxResult where
  | ok
  | fail
  deriving DecidableEq, Repr, Inhabited

/-- What the transport does with one `TxWrite` call: it answers (60_exceptions.md R125), or the call never returns
(R119, 93_implementation_defined.md U5). -/
inductive TxAnswer where
  | answered (r : TxResult)
  | never
  deriving DecidableEq, Repr, Inhabited

/-- What the delay port does with one `Delay` call: it returns (60_exceptions.md R126), or never does (R119, U5). -/
inductive DelayAnswer where
  | returned
  | never
  deriving DecidableEq, Repr, Inhabited

/-- The parameters of 00_scope.md R7 (wire literals), R8 (delays, in microseconds) and R9 (chip-select polarity).
The defaults of the literals are those of R7. PRESUMED by the spec itself, "from general knowledge, not in source":
log 7, unsafe. T_DATA_SETTLE and T_ROW_SETTLE "default to no delay" (70_reset_and_hazards.md R136). T_INIT_SETTLE,
T_ADDR_SETTLE and the polarity have no default (92_eei_decisions.md, open parameters). -/
structure Params where
  syncHigh : BitVec 5 := 0b11111#5
  rwPos : Nat := 2
  rsPos : Nat := 1
  syncLsb : BitVec 1 := 0#1
  cmdFuncBasic : Byte := 0x30#8
  cmdFuncExt : Byte := 0x34#8
  cmdGfxOn : Byte := 0x36#8
  cmdSetGaddr : Byte := 0x80#8
  tInitSettle : Nat
  tAddrSettle : Nat
  tDataSettle : Nat := 0
  tRowSettle : Nat := 0
  csActive : Bool
  deriving DecidableEq, Repr

/-- The constraints the spec puts on the parameters: the flag positions are 1 and 2 in either order, the address-set
base has its low 5 bits zero (92_eei_decisions.md, open parameters), the two mandatory delays are positive (R8). -/
abbrev Params.wf (p : Params) : Prop :=
  (p.rwPos = 2 ∧ p.rsPos = 1 ∨ p.rwPos = 1 ∧ p.rsPos = 2) ∧ p.cmdSetGaddr &&& 0x1F#8 = 0#8 ∧
    0 < p.tInitSettle ∧ 0 < p.tAddrSettle

namespace Config

/-- T_INIT_SETTLE less 1: OPEN, but positive (00_scope.md R8). Free value, log 8. -/
opaque initSettleExcess : Nat

/-- T_ADDR_SETTLE less 1: OPEN, but positive (00_scope.md R8). Free value, log 8. -/
opaque addrSettleExcess : Nat

/-- T_DATA_SETTLE: OPEN, may be 0, its default (00_scope.md R8, R136). Free value, log 8. -/
opaque dataSettle : Nat

/-- T_ROW_SETTLE: OPEN, may be 0, its default (00_scope.md R8, R136). Free value, log 8. -/
opaque rowSettle : Nat

/-- CS_ACTIVE: the electrical level that selects the module; OPEN (00_scope.md R9). Free value, log 9. -/
opaque csActive : Bool

/-- The transport's answer to a `TxWrite` call for which no answer is scripted: "a model treats the transport as an
oracle that answers each call with ok or fail freely, with no law" (60_exceptions.md R125), or the call never returns
(U5). Free value, log 2. -/
opaque freeTxAnswer : Nat → TxAnswer

/-- Whether a `Delay` call returns for which nothing is scripted. Free value, log 3. -/
opaque freeDelayAnswer : Nat → DelayAnswer

/-- How many bytes of a failed packet, the n-th event of a trace, reached the wire: any of 0 to 3, "a model must not
assume any of these" (60_exceptions.md R114, U13). Free value (a number above 3 counts as 3), log 17. -/
opaque failedPacketBytes : Nat → Nat

/-- The parameters with every default the spec gives: R7's literals (log 7), no delay after a word or a row (R136).
Those without a default are free values (log 8, log 9). -/
def defaults : Params where
  tInitSettle := initSettleExcess + 1
  tAddrSettle := addrSettleExcess + 1
  csActive := csActive

/-- The parameters of the block that runs: the defaults, with the two delays that default to none left free, since they
are OPEN (00_scope.md R8): "A model must not prove anything from the absence of a delay." (92_eei_decisions.md D12).
What holds of `block` holds of every value of the two, 0 among them: log 8. -/
def block : Params := { defaults with tDataSettle := dataSettle, tRowSettle := rowSettle }

end Config

end Sys2Proof
end

