-- ==== Sys2Proof/Syntax.lean ====
section
/-! DEFINITION. The nine operations of the opcode table (00_scope.md R3, 30_encoding.md R54), with the operands they
have after operand assembly (R53): coordinates, indices, rows and groups are mathematical integers (00_scope.md R10). -/

namespace Sys2Proof

/-- One constructor per row of spec/opcode_table.json. -/
inductive Instr where
  /-- SET_PIXEL x, y (40_framebuffer.md R72). -/
  | setPixel (x y : Int)
  /-- CLEAR_PIXEL x, y (40_framebuffer.md R73). -/
  | clearPixel (x y : Int)
  /-- GET_PIXEL x, y (40_framebuffer.md R74). -/
  | getPixel (x y : Int)
  /-- CLEAR_ALL (40_framebuffer.md R75). -/
  | clearAll
  /-- RAW_READ i (40_framebuffer.md R76). -/
  | rawRead (i : Nat)
  /-- ENCODE value, rs, rw (41_packet_codec.md R86). -/
  | encode (value : Byte) (rs rw : Bool)
  /-- XLATE r, g (42_address_translator.md R94). -/
  | xlate (r g : Nat)
  /-- INIT (43_sequencer.md R100). -/
  | init
  /-- FLUSH (43_sequencer.md R102). -/
  | flush
  deriving DecidableEq, Repr

/-- The mnemonic of an operation, as the opcode table has it (30_encoding.md R54). -/
def Instr.mnemonic : Instr → String
  | .setPixel _ _ => "SET_PIXEL"
  | .clearPixel _ _ => "CLEAR_PIXEL"
  | .getPixel _ _ => "GET_PIXEL"
  | .clearAll => "CLEAR_ALL"
  | .rawRead _ => "RAW_READ"
  | .encode _ _ _ => "ENCODE"
  | .xlate _ _ => "XLATE"
  | .init => "INIT"
  | .flush => "FLUSH"

end Sys2Proof
end

