-- ==== Sys2Proof/WellFormed.lean ====
section
/-! DEFINITION. Which instruction terms a command word can carry: each operand within the range its field gives it
(30_encoding.md R53). A coordinate off the canvas, an index of 1024 or more, a row of 64 or more are well-formed:
"the operation's own rule says what they do" (R55). -/

namespace Sys2Proof

/-- `z` is a value of `sext_16`: -32768..32767 (00_scope.md R10, 30_encoding.md R53). -/
abbrev Sext16 (z : Int) : Prop := -32768 ≤ z ∧ z ≤ 32767

/-- `n` is a value of `zext_16`: 0..65535 (00_scope.md R10, 30_encoding.md R53). -/
abbrev Zext16 (n : Nat) : Prop := n < 65536

/-- The operands of the instruction fit their fields. -/
def Instr.wellFormed : Instr → Bool
  | .setPixel x y => decide (Sext16 x ∧ Sext16 y)
  | .clearPixel x y => decide (Sext16 x ∧ Sext16 y)
  | .getPixel x y => decide (Sext16 x ∧ Sext16 y)
  | .clearAll => true
  | .rawRead i => decide (Zext16 i)
  | .encode _ _ _ => true
  | .xlate r g => decide (Zext16 r ∧ Zext16 g)
  | .init => true
  | .flush => true

/-- The operands of `i` fit their fields, as a proposition. -/
abbrev Instr.WellFormed (i : Instr) : Prop := i.wellFormed = true

end Sys2Proof
end

