-- ==== Sys2Proof/Decode.lean ====
section
/-! DEFINITION. The command word: its fields, the decoder, total on all 2^40 words, the encoder, the opcode table and
the assembler text (30_encoding.md R50 to R55, R64). The encoding of the command port is the spec's own decision D2. -/

namespace Sys2Proof

/-- `OP = CMD[39:32]` (30_encoding.md R50). -/
def opField (w : Cmd) : Byte := w.extractLsb' 32 8

/-- `A = CMD[31:16]` (30_encoding.md R50). -/
def aField (w : Cmd) : BitVec 16 := w.extractLsb' 16 16

/-- `B = CMD[15:0]` (30_encoding.md R50). -/
def bField (w : Cmd) : BitVec 16 := w.extractLsb' 0 16

/-- `sext_16` of a field (00_scope.md R10). -/
def sext16 (v : BitVec 16) : Int := v.toInt

/-- `zext_16` of a field (00_scope.md R10). -/
def zext16 (v : BitVec 16) : Nat := v.toNat

/-- The command word with the three fields `op`, `a`, `b` (30_encoding.md R50). -/
def packCmd (op : Byte) (a b : BitVec 16) : Cmd := op ++ a ++ b

/-- Why a command word is illegal (30_encoding.md R55). -/
inductive Reject where
  /-- `OP` is not one of the nine values of R54. -/
  | unknownOpcode (op : Byte)
  /-- A "must be 0" field of the format of `OP` (R51) is not 0. -/
  | reservedNotZero (op : Byte)
  deriving DecidableEq, Repr

/-- Format N: both operand fields must be 0 (30_encoding.md R51). -/
def decodeN (w : Cmd) (i : Instr) : Except Reject Instr :=
  if aField w = 0#16 ∧ bField w = 0#16 then .ok i else .error (.reservedNotZero (opField w))

/-- Format I: `i = zext_16(A)`, `B` must be 0 (30_encoding.md R51). -/
def decodeI (w : Cmd) : Except Reject Instr :=
  if bField w = 0#16 then .ok (.rawRead (zext16 (aField w))) else .error (.reservedNotZero (opField w))

/-- Format K: `value = A[7:0]`, `rw = B[1]`, `rs = B[0]`, the other bits of `A` and `B` must be 0
(30_encoding.md R51). -/
def decodeK (w : Cmd) : Except Reject Instr :=
  if (aField w).extractLsb' 8 8 = 0#8 ∧ (bField w).extractLsb' 2 14 = 0#14 then
    .ok (.encode ((aField w).extractLsb' 0 8) ((bField w).getLsbD 0) ((bField w).getLsbD 1))
  else .error (.reservedNotZero (opField w))

/-- The decoder: the operation a command word stands for, or why it stands for none (30_encoding.md R51, R54, R55).
`MODE` has no part in it (R69). -/
def decode (w : Cmd) : Except Reject Instr :=
  match (opField w).toNat with
  | 0x01 => .ok (.setPixel (sext16 (aField w)) (sext16 (bField w)))
  | 0x02 => .ok (.clearPixel (sext16 (aField w)) (sext16 (bField w)))
  | 0x03 => .ok (.getPixel (sext16 (aField w)) (sext16 (bField w)))
  | 0x04 => decodeN w .clearAll
  | 0x05 => decodeI w
  | 0x10 => decodeK w
  | 0x11 => .ok (.xlate (zext16 (aField w)) (zext16 (bField w)))
  | 0x20 => decodeN w .init
  | 0x21 => decodeN w .flush
  | _ => .error (.unknownOpcode (opField w))

/-- The `OP` value of an operation (30_encoding.md R54). -/
def opcode : Instr → Byte
  | .setPixel _ _ => 0x01#8
  | .clearPixel _ _ => 0x02#8
  | .getPixel _ _ => 0x03#8
  | .clearAll => 0x04#8
  | .rawRead _ => 0x05#8
  | .encode _ _ _ => 0x10#8
  | .xlate _ _ => 0x11#8
  | .init => 0x20#8
  | .flush => 0x21#8

/-- The field `A` of an operation's word (30_encoding.md R51). -/
def operandA : Instr → BitVec 16
  | .setPixel x _ => BitVec.ofInt 16 x
  | .clearPixel x _ => BitVec.ofInt 16 x
  | .getPixel x _ => BitVec.ofInt 16 x
  | .clearAll => 0#16
  | .rawRead i => BitVec.ofNat 16 i
  | .encode value _ _ => 0#8 ++ value
  | .xlate r _ => BitVec.ofNat 16 r
  | .init => 0#16
  | .flush => 0#16

/-- The field `B` of an operation's word (30_encoding.md R51). -/
def operandB : Instr → BitVec 16
  | .setPixel _ y => BitVec.ofInt 16 y
  | .clearPixel _ y => BitVec.ofInt 16 y
  | .getPixel _ y => BitVec.ofInt 16 y
  | .clearAll => 0#16
  | .rawRead _ => 0#16
  | .encode _ rs rw => 0#14 ++ BitVec.ofBool rw ++ BitVec.ofBool rs
  | .xlate _ g => BitVec.ofNat 16 g
  | .init => 0#16
  | .flush => 0#16

/-- The encoder: the command word of a well-formed instruction (30_encoding.md R51, R54). -/
def encode (i : Instr) : Cmd := packCmd (opcode i) (operandA i) (operandB i)

/-- A row of the opcode table: a word is an encoding of the row when its bits under `mask` are `pattern`. -/
structure TableRow where
  mnemonic : String
  pattern : Cmd
  mask : Cmd
  deriving DecidableEq, Repr

/-- spec/opcode_table.json, row for row. -/
def opcodeTable : List TableRow :=
  [⟨"SET_PIXEL", 0x0100000000#40, 0xFF00000000#40⟩, ⟨"CLEAR_PIXEL", 0x0200000000#40, 0xFF00000000#40⟩,
    ⟨"GET_PIXEL", 0x0300000000#40, 0xFF00000000#40⟩, ⟨"CLEAR_ALL", 0x0400000000#40, 0xFFFFFFFFFF#40⟩] ++
  [⟨"RAW_READ", 0x0500000000#40, 0xFF0000FFFF#40⟩, ⟨"ENCODE", 0x1000000000#40, 0xFFFF00FFFC#40⟩,
    ⟨"XLATE", 0x1100000000#40, 0xFF00000000#40⟩, ⟨"INIT", 0x2000000000#40, 0xFFFFFFFFFF#40⟩,
    ⟨"FLUSH", 0x2100000000#40, 0xFFFFFFFFFF#40⟩]

/-- The word `w` is an encoding of the table's row `t`. -/
abbrev TableRow.Matches (t : TableRow) (w : Cmd) : Prop := w &&& t.mask = t.pattern

/-- The command word whose low `nbits` bits are those of `w`, the bits above them 0. -/
def tableWord (nbits w : Nat) : Cmd := BitVec.ofNat 40 (w % 2 ^ nbits)

/-- The instruction the decoder reads from a word of the opcode table, its bits numbered as the table numbers them
(a command word is one word of 40 bits, so the table's numbering is the command word's). -/
def decodeTableWord (nbits w : Nat) : Option Instr := (decode (tableWord nbits w)).toOption

/-- The hexadecimal digit of `n`, for `n < 16`. -/
def hexDigit (n : Nat) : Char := if n < 10 then Char.ofNat (48 + n) else Char.ofNat (55 + n)

/-- The last `k` hexadecimal digits of `n`, most significant first. -/
def hexDigits : Nat → Nat → List Char
  | 0, _ => []
  | k + 1, n => hexDigits k (n / 16) ++ [hexDigit (n % 16)]

/-- A command word as 10 hexadecimal digits (30_encoding.md R64). -/
def hexWord (w : Cmd) : String := "0x" ++ String.ofList (hexDigits 10 w.toNat)

/-- A flag as an assembler operand: 0 or 1. -/
def flagText (b : Bool) : String := if b then "1" else "0"

/-- The assembler line of an operation: its mnemonic, then its operands in decimal, the value of ENCODE in
hexadecimal (30_encoding.md R64). -/
def asm : Instr → String
  | .setPixel x y => "SET_PIXEL " ++ toString x ++ ", " ++ toString y
  | .clearPixel x y => "CLEAR_PIXEL " ++ toString x ++ ", " ++ toString y
  | .getPixel x y => "GET_PIXEL " ++ toString x ++ ", " ++ toString y
  | .clearAll => "CLEAR_ALL"
  | .rawRead i => "RAW_READ " ++ toString i
  | .encode value rs rw =>
    "ENCODE 0x" ++ String.ofList (hexDigits 2 value.toNat) ++ ", " ++ flagText rs ++ ", " ++ flagText rw
  | .xlate r g => "XLATE " ++ toString r ++ ", " ++ toString g
  | .init => "INIT"
  | .flush => "FLUSH"

end Sys2Proof
end

