-- ==== Sys2Proof/Machine/State.lean ====
section
/-! DEFINITION. The state of the block (10_state.md), plain data; its reset value (R24, R130); the reasons a step can
stop. The first six fields are the spec's; the last three are the model's own: the inputs from outside the block. -/

namespace Sys2Proof.Machine

/-- The framebuffer `FB`: the bytes that are not 0x00, by rising index. An index not listed reads as 0x00, the reset
value of every byte (10_state.md R16, R24). Log 13. -/
abbrev Memory := List Host.Cell

/-- The mode register `MODE` (10_state.md R17). The value 3 is no legal value and has no constructor (U10). -/
inductive Mode where
  | uninit
  | basic
  | extgfx
  deriving DecidableEq, Repr

/-- The status of a response (60_exceptions.md R113). The codes 6..15 are never produced and have no constructor
(U10). -/
inductive Status where
  | ok
  | transportError
  | preconditionViolation
  | illegalOp
  | notInitialized
  | alreadyInitialized
  deriving DecidableEq, Repr

/-- A response `RSP = {STATUS, DATA}` (30_encoding.md R52). -/
structure Response where
  status : Status
  data : Data
  deriving DecidableEq, Repr

/-- A wire packet: sync byte, high-nibble byte, low-nibble byte (30_encoding.md R56). -/
structure Packet where
  b0 : Byte
  b1 : Byte
  b2 : Byte
  deriving DecidableEq, Repr

/-- An event of the output trace `OUT`: `Cs(b)`, `Tx(b0,b1,b2,result)`, `Dly(n)` (00_scope.md R11). -/
inductive Event where
  | cs (selected : Bool)
  | tx (packet : Packet) (result : TxResult)
  | dly (microseconds : Nat)
  deriving DecidableEq, Repr

/-- Which of INIT's commands is next (10_state.md R21; 43_sequencer.md R100). -/
inductive InitCommand where
  | funcBasic
  | funcExt
  | gfxOn
  deriving DecidableEq, Repr

/-- A port call of INIT or FLUSH: which initialization command, or which row `r`, group `g` and phase of the row
(10_state.md R14, R21). -/
inductive SeqPoint where
  | initSend (c : InitCommand)
  | initSettle (c : InitCommand)
  | addrVertical (r : Row)
  | addrHorizontal (r : Row)
  | addrSettle (r : Row)
  | dataHigh (r : Row) (g : Group)
  | dataLow (r : Row) (g : Group)
  | dataSettle (r : Row) (g : Group)
  | rowSettle (r : Row)
  deriving DecidableEq, Repr

/-- A move of the host (70_reset_and_hazards.md R144). -/
inductive HostMove where
  /-- Present one command word while the block is idle. -/
  | command (w : Cmd)
  /-- Reset the block. -/
  | reset
  deriving DecidableEq, Repr

/-- The answers a platform port will give: those of the script, in order, then free draws, of which `drawn` have been
made. The MODEL'S OWN, an input of the block. Log 2, log 3. -/
structure Feed (α : Type) where
  script : List α
  drawn : Nat
  deriving DecidableEq, Repr

/-- The state of the block and of its inputs. -/
structure State where
  /-- `FB` (10_state.md R16). -/
  fb : Memory
  /-- `MODE` (10_state.md R17). -/
  mode : Mode
  /-- The operation in progress: the port call that has not returned (10_state.md R21). `none` between operations. -/
  busy : Option SeqPoint
  /-- The chip-select line: is the module selected (60_exceptions.md R127). Log 10. -/
  cs : Bool
  /-- `OUT`, oldest first (10_state.md R23). -/
  out : List Event
  /-- The response port: the responses produced since reset, oldest first (30_encoding.md R52, R130, R143). Log 11. -/
  rsp : List Response
  /-- MODEL'S OWN: the moves the host has still to make, the next one first (R143, R144). Log 1. -/
  host : List HostMove
  /-- MODEL'S OWN: the transport's answers to the coming `TxWrite` calls (60_exceptions.md R125). Log 2. -/
  tx : Feed TxAnswer
  /-- MODEL'S OWN: the delay port's answers to the coming `Delay` calls (60_exceptions.md R126, R119). Log 3. -/
  dly : Feed DelayAnswer
  deriving DecidableEq, Repr

/-- Why a step stops. -/
inductive Fault where
  /-- Raised by `step`, and by `endOfRun` for a run, in a state whose `busy` names a `TxWrite` or `Delay` call: that
  call never returns, so the block is stuck for ever with no response (60_exceptions.md R119, 70_reset_and_hazards.md R140, U5). The stuck
  state of the spec itself. Safe. Log 4. -/
  | portNeverReturned (point : SeqPoint)
  deriving DecidableEq, Repr

/-- Why an instruction has no meaning. -/
inductive Refusal where
  /-- Raised by an arm of `exec` whose instruction has no meaning yet. Safe. No arm of this model raises it. -/
  | notModelled (mnemonic : String)
  deriving DecidableEq, Repr

/-- The block right after reset (10_state.md R24, 70_reset_and_hazards.md R130; chip select deselected, R129). The
inputs are empty: DESIGN CHOICE, log 18; no statement rests on them. -/
def State.reset : State where
  fb := []
  mode := .uninit
  busy := none
  cs := false
  out := []
  rsp := []
  host := []
  tx := ⟨[], 0⟩
  dly := ⟨[], 0⟩

end Sys2Proof.Machine
end

