-- ==== Sys2Proof/Machine/Ops.lean ====
section
/-! DEFINITION. The named operations over the state (00_scope.md R11): reading and writing framebuffer bytes,
answering and raising (60_exceptions.md R113, R121), the three output ports, the run of a sequence of port actions,
and the reset event (70_reset_and_hazards.md R129). -/

namespace Sys2Proof.Machine

/-! ### The framebuffer as memory -/

/-- What an index that is not listed reads as: the reset value of every byte (10_state.md R24). Log 13. -/
def Memory.unlisted : Byte := 0x00#8

/-- The byte at index `a`. -/
def Memory.read : Memory → Nat → Byte
  | [], _ => Memory.unlisted
  | (k, v) :: m, a => if a = k then v else Memory.read m a

/-- `m` with nothing listed at `a`. -/
def Memory.erase (m : Memory) (a : Nat) : Memory := m.filter fun c => c.1 ≠ a

/-- `m` with `v` listed at `a`, at its place in the order. -/
def Memory.insert : Memory → Nat → Byte → Memory
  | [], a, v => [(a, v)]
  | (k, w) :: m, a, v =>
    if a < k then (a, v) :: (k, w) :: m
    else if a = k then (a, v) :: m
    else (k, w) :: Memory.insert m a v

/-- `m` with the byte at index `a` replaced by `v`, in canonical form: a byte that is what an unlisted index reads as
is not listed. -/
def Memory.write (m : Memory) (a : Nat) (v : Byte) : Memory :=
  if v = Memory.unlisted then m.erase a else m.insert a v

/-- The canonical form: indices strictly rising, all below 1024, no entry equal to what an unlisted index reads as. -/
abbrev Memory.wf (m : Memory) : Prop :=
  m.Pairwise (fun c d => c.1 < d.1) ∧ ∀ c ∈ m, c.1 < 1024 ∧ c.2 ≠ Memory.unlisted

/-- `MemRead(i, 1)` (00_scope.md R11). -/
def memRead1 (fb : Memory) (i : ByteIndex) : Byte := fb.read i

/-- `MemRead(i, 2)`: the byte at the lowest index is the most significant (00_scope.md R11, 20_memory.md R33). -/
def memRead2 (fb : Memory) (i j : ByteIndex) : Word16 := memRead1 fb i ++ memRead1 fb j

/-- `MemWrite(i, 1, v)` (00_scope.md R11). -/
def memWrite1 (fb : Memory) (i : ByteIndex) (v : Byte) : Memory := fb.write i v

/-- Every byte set to 0x00 (40_framebuffer.md R75): in canonical form, nothing listed. -/
def Memory.cleared : Memory := []

/-! ### Single updates of the state -/

/-- `s` with the framebuffer `fb`. -/
def State.setFb (s : State) (fb : Memory) : State := { s with fb := fb }

/-- `MODE <- m` (00_scope.md R11). -/
def State.setMode (s : State) (m : Mode) : State := { s with mode := m }

/-- `s` with the port call `p` in progress (10_state.md R21). -/
def State.setBusy (s : State) (p : SeqPoint) : State := { s with busy := some p }

/-- `e` appended to `OUT` (00_scope.md R11). -/
def State.emit (s : State) (e : Event) : State := { s with out := s.out ++ [e] }

/-- `CsSet(b)`: drives the chip-select line and appends its event (00_scope.md R11, 60_exceptions.md R127). -/
def State.csSet (s : State) (b : Bool) : State := { s with cs := b, out := s.out ++ [.cs b] }

/-- `s` with the response `r` produced on the response port (30_encoding.md R52). -/
def State.respond (s : State) (r : Response) : State := { s with rsp := s.rsp ++ [r] }

/-- `return (OK, d)` (00_scope.md R11). -/
def State.answer (s : State) (d : Data) : State := s.respond ⟨.ok, d⟩

/-- `raise E`, the block's taking of an exception: the operation ends with the status `e` and `DATA = 0`; nothing is
saved, no handler is entered, control returns to the host (00_scope.md R11; 60_exceptions.md R113, R121). There is no
return from it: the host issues its next operation (R122). -/
def State.raise (s : State) (e : Status) : State := s.respond ⟨e, 0#24⟩

/-! ### The platform's answers -/

variable {α : Type}

/-- The next answer of a feed and the feed after it: the script's head, or a free draw. Log 2, log 3. -/
def Feed.next (free : Nat → α) (f : Feed α) : α × Feed α :=
  match f.script with
  | a :: rest => (a, ⟨rest, f.drawn⟩)
  | [] => (free f.drawn, ⟨[], f.drawn + 1⟩)

/-- The answer a feed gives to its call number `k`, counting the coming call as 0. -/
def Feed.answerAt (free : Nat → α) (f : Feed α) (k : Nat) : α :=
  match f.script[k]? with
  | some a => a
  | none => free (f.drawn + (k - f.script.length))

/-- The feed after `k` more answers. -/
def Feed.after (f : Feed α) (k : Nat) : Feed α := ⟨f.script.drop k, f.drawn + (k - f.script.length)⟩

/-- What the transport does with the `k`-th coming `TxWrite` call, counted from 0. -/
def State.txAnswer (s : State) (k : Nat) : TxAnswer := s.tx.answerAt Config.freeTxAnswer k

/-- What the delay port does with the `k`-th coming `Delay` call, counted from 0. -/
def State.delayAnswer (s : State) (k : Nat) : DelayAnswer := s.dly.answerAt Config.freeDelayAnswer k

/-! ### The output ports -/

/-- `TxWrite(b0, b1, b2)`: one packet, one call, one answer (00_scope.md R11, 60_exceptions.md R125). A call that
answers appends its event. One that never returns has no result and so no event: log 4. -/
def txWrite (p : Packet) (s : State) : TxAnswer × State :=
  match s.tx.next Config.freeTxAnswer with
  | (.answered r, f) => (.answered r, { s with tx := f }.emit (.tx p r))
  | (.never, f) => (.never, { s with tx := f })

/-- `Delay(n)` (00_scope.md R11, 60_exceptions.md R126). The event is appended when the wait is asked for, whether or
not the call returns: log 4. -/
def delay (n : Nat) (s : State) : DelayAnswer × State :=
  match s.dly.next Config.freeDelayAnswer with
  | (a, f) => (a, { s with dly := f }.emit (.dly n))

/-! ### Sequences of port actions: the body of INIT and of FLUSH -/

/-- One action of the sequencer's pseudocode (43_sequencer.md R100, R102). -/
inductive Act where
  /-- `CsSet(b)`. -/
  | select (b : Bool)
  /-- `MODE <- m`. -/
  | toMode (m : Mode)
  /-- `if TxWrite(p) = fail then goto failed`. -/
  | send (point : SeqPoint) (p : Packet)
  /-- `Delay(n)`. -/
  | settle (point : SeqPoint) (n : Nat)
  deriving DecidableEq, Repr

/-- How a sequence of actions ends: at its end; at a `TxWrite` that answered `fail`; in a port call that never
returns. -/
inductive Ending where
  | done
  | failed
  | stalled
  deriving DecidableEq, Repr

/-- The run of a sequence of actions, in order: it stops at once at the first `TxWrite` that answers `fail`
(43_sequencer.md R101, R104), and in a call that never returns the operation stays in progress (60_exceptions.md
R119). -/
def runActs : List Act → State → Ending × State
  | [], s => (.done, s)
  | .select b :: k, s => runActs k (s.csSet b)
  | .toMode m :: k, s => runActs k (s.setMode m)
  | .send point p :: k, s =>
    match txWrite p s with
    | (.answered .ok, s') => runActs k s'
    | (.answered .fail, s') => (.failed, s')
    | (.never, s') => (.stalled, s'.setBusy point)
  | .settle point n :: k, s =>
    match delay n s with
    | (.returned, s') => runActs k s'
    | (.never, s') => (.stalled, s'.setBusy point)

/-- `if n > 0 then Delay(n)` (43_sequencer.md R102, R110). -/
def settleIfAny (point : SeqPoint) (n : Nat) : List Act := if 0 < n then [.settle point n] else []

/-! ### The reset event -/

/-- Reset: the state of R130, no operation in progress, no event on any port (70_reset_and_hazards.md R129). The
inputs are not the block's and go on: log 19. -/
def State.resetBlock (s : State) : State := { State.reset with host := s.host, tx := s.tx, dly := s.dly }

end Sys2Proof.Machine
end

