-- ==== Sys2Proof/Machine/Flags.lean ====
section
/-! DEFINITION. The block has no flags (10_state.md R15). What stands in their place is here: the codes of the status
field, the code of the mode register, and the layouts of the response (30_encoding.md R52; 60_exceptions.md R113;
10_state.md R17). The codes and layouts are the spec's own decisions D3, D14, D22. -/

namespace Sys2Proof.Machine

/-- The value of `STATUS` (60_exceptions.md R113). -/
def Status.code : Status → BitVec 4
  | .ok => 0#4
  | .transportError => 1#4
  | .preconditionViolation => 2#4
  | .illegalOp => 3#4
  | .notInitialized => 4#4
  | .alreadyInitialized => 5#4

/-- The value of `MODE` (10_state.md R17). -/
def Mode.code : Mode → BitVec 2
  | .uninit => 0#2
  | .basic => 1#2
  | .extgfx => 2#2

/-- The 28-bit response `RSP`: `STATUS = RSP[27:24]`, `DATA = RSP[23:0]` (30_encoding.md R52). -/
def Response.word (r : Response) : BitVec 28 := r.status.code ++ r.data

/-- The DATA of GET_PIXEL: `DATA[1] = valid`, `DATA[0] = pix` (30_encoding.md R52). -/
def pixelData (valid pix : Bool) : Data := 0#22 ++ BitVec.ofBool valid ++ BitVec.ofBool pix

/-- The DATA of RAW_READ: `DATA[7:0]` the byte (30_encoding.md R52). -/
def byteData (v : Byte) : Data := 0#16 ++ v

/-- The DATA of ENCODE: the packet's bytes, the sync byte most significant (30_encoding.md R52). -/
def packetData (p : Packet) : Data := p.b0 ++ p.b1 ++ p.b2

/-- The DATA of XLATE: `DATA[15:8]` vertical, `DATA[7:0]` horizontal (30_encoding.md R52). -/
def addressData (v : Vertical) (h : Horizontal) : Data := 0#8 ++ BitVec.ofNat 8 v.val ++ BitVec.ofNat 8 h.val

end Sys2Proof.Machine
end

