-- ==== Sys2Proof/Machine/Operands.lean ====
section
/-! DEFINITION. The operand forms: pixel coordinates, byte indices, row and column group, with their range checks, and
the addressing function of the framebuffer (40_framebuffer.md R70, R71; 20_memory.md R28 to R33). -/

namespace Sys2Proof.Machine

/-- `in_range(x, y)` (40_framebuffer.md R71). -/
abbrev InRange (x y : Int) : Prop := 0 ≤ x ∧ x < 128 ∧ 0 ≤ y ∧ y < 64

/-- The column a coordinate in 0..127 names. -/
def column (x : Int) (h : 0 ≤ x ∧ x < 128) : Column := ⟨x.toNat, by omega⟩

/-- The row a coordinate in 0..63 names. -/
def row (y : Int) (h : 0 ≤ y ∧ y < 64) : Row := ⟨y.toNat, by omega⟩

/-- The pixel a coordinate names, if it is on the canvas (40_framebuffer.md R71: the addressing function "is never
evaluated on an out-of-range coordinate"). -/
def pixelAt (x y : Int) : Option (Column × Row) :=
  if h : 0 ≤ x ∧ x < 128 then
    if k : 0 ≤ y ∧ y < 64 then some (column x h, row y k) else none
  else none

/-- `byte_index(x, y) = y*16 + (x div 8)` (40_framebuffer.md R70). -/
def byteIndex (x : Column) (y : Row) : ByteIndex := ⟨y.val * 16 + x.val / 8, by omega⟩

/-- `bit_index(x) = 7 - (x mod 8)` (40_framebuffer.md R70). -/
def bitIndex (x : Column) : Fin 8 := ⟨7 - x.val % 8, by omega⟩

/-- `mask(x) = 1 << (7 - (x mod 8))` (40_framebuffer.md R70). -/
def mask (x : Column) : Byte := 1#8 <<< (7 - x.val % 8)

/-- Pixel `(x, y)` of the framebuffer (40_framebuffer.md R70, 20_memory.md R30). -/
def pixel (fb : Memory) (x : Column) (y : Row) : Bool := (memRead1 fb (byteIndex x y)).getLsbD (bitIndex x)

/-- The index of the left byte of word `(r, g)`: `16*r + 2*g` (20_memory.md R31). -/
def leftIndex (r : Row) (g : Group) : ByteIndex := ⟨16 * r.val + 2 * g.val, by omega⟩

/-- The index of the right byte of word `(r, g)`: `16*r + 2*g + 1` (20_memory.md R31). -/
def rightIndex (r : Row) (g : Group) : ByteIndex := ⟨16 * r.val + 2 * g.val + 1, by omega⟩

/-- Word `(r, g)` of the framebuffer, `MemRead(16*r + 2*g, 2)` (20_memory.md R31). -/
def wordAt (fb : Memory) (r : Row) (g : Group) : Word16 := memRead2 fb (leftIndex r g) (rightIndex r g)

/-- The byte a RAW_READ index names, if there is one (40_framebuffer.md R76). -/
def byteAt (i : Nat) : Option ByteIndex := if h : i < 1024 then some ⟨i, h⟩ else none

/-- The word position an XLATE row and group name, if there is one (42_address_translator.md R94, R95). -/
def wordPosition (r g : Nat) : Option (Row × Group) :=
  if h : r < 64 then
    if k : g < 8 then some (⟨r, h⟩, ⟨g, k⟩) else none
  else none

end Sys2Proof.Machine
end

