-- ==== Sys2Proof/Machine/Codec.lean ====
section
/-! DEFINITION. The Serial Packet Codec (41_packet_codec.md; 30_encoding.md R56 to R58, R62): the encoding function,
its inverse, ENCODE, and the micro-operations SEND_CMD and SEND_DATA. -/

namespace Sys2Proof.Machine

/-- A flag as a byte: 0 or 1. -/
def flagByte (b : Bool) : Byte := (BitVec.ofBool b).setWidth 8

/-- `sync(rs, rw)` (30_encoding.md R57). -/
def syncByte (p : Params) (rs rw : Bool) : Byte :=
  (p.syncHigh.setWidth 8 <<< 3) ||| (flagByte rw <<< p.rwPos) ||| (flagByte rs <<< p.rsPos) ||| p.syncLsb.setWidth 8

/-- `encode(value, rs, rw)`: sync byte, high-nibble byte, low-nibble byte (41_packet_codec.md R85, 30_encoding.md
R58). -/
def encodePacket (p : Params) (value : Byte) (rs rw : Bool) : Packet :=
  ⟨syncByte p rs rw, value &&& 0xF0#8, value <<< 4⟩

/-- What a packet carries: the logical byte and the two flags (30_encoding.md R62). -/
structure Payload where
  value : Byte
  rs : Bool
  rw : Bool
  deriving DecidableEq, Repr

/-- Three bytes are a well-formed packet (30_encoding.md R62). -/
abbrev Packet.WellFormed (p : Params) (k : Packet) : Prop :=
  k.b0.extractLsb' 3 5 = p.syncHigh ∧ k.b0.extractLsb' 0 1 = p.syncLsb ∧ k.b1.extractLsb' 0 4 = 0#4 ∧
    k.b2.extractLsb' 0 4 = 0#4

/-- Packet decoding, for the observer and for test benches: the block never receives a packet (30_encoding.md R62). -/
def decodePacket (p : Params) (k : Packet) : Option Payload :=
  if k.WellFormed p then
    some ⟨k.b1.extractLsb' 4 4 ++ k.b2.extractLsb' 4 4, k.b0.getLsbD p.rsPos, k.b0.getLsbD p.rwPos⟩
  else none

/-- `SEND_CMD v`: one packet with `rs = 0, rw = 0` (41_packet_codec.md R87). -/
def sendCmd (p : Params) (point : SeqPoint) (v : Byte) : Act := .send point (encodePacket p v false false)

/-- `SEND_DATA v`: one packet with `rs = 1, rw = 0` (41_packet_codec.md R88). -/
def sendData (p : Params) (point : SeqPoint) (v : Byte) : Act := .send point (encodePacket p v true false)

/-- ENCODE (41_packet_codec.md R86): the packet is returned, nothing is sent. -/
def execEncode (value : Byte) (rs rw : Bool) (s : State) : Host.Outcome State Fault Refusal :=
  .next (s.answer (packetData (encodePacket Config.block value rs rw)))

end Sys2Proof.Machine
end

