-- ==== Sys2Proof/Machine/Framebuffer.lean ====
section
/-! DEFINITION. The Bit-Packed Framebuffer operations (40_framebuffer.md): SET_PIXEL, CLEAR_PIXEL, GET_PIXEL,
CLEAR_ALL, RAW_READ. None reads or writes MODE, none appends to OUT (R82). -/

namespace Sys2Proof.Machine

/-- The framebuffer after pixel `(x, y)` is turned on (40_framebuffer.md R72). -/
def fbSetPixel (fb : Memory) (x : Column) (y : Row) : Memory :=
  memWrite1 fb (byteIndex x y) (memRead1 fb (byteIndex x y) ||| mask x)

/-- The framebuffer after pixel `(x, y)` is turned off (40_framebuffer.md R73). -/
def fbClearPixel (fb : Memory) (x : Column) (y : Row) : Memory :=
  memWrite1 fb (byteIndex x y) (memRead1 fb (byteIndex x y) &&& ~~~ mask x)

/-- SET_PIXEL (40_framebuffer.md R72). A coordinate off the canvas is silently ignored, status OK (R71, the spec's
own decision D5, log 16). -/
def execSetPixel (x y : Int) (s : State) : Host.Outcome State Fault Refusal :=
  .next (match pixelAt x y with
    | some (c, r) => (s.setFb (fbSetPixel s.fb c r)).answer 0#24
    | none => s.answer 0#24)

/-- CLEAR_PIXEL (40_framebuffer.md R73, R71; log 16). -/
def execClearPixel (x y : Int) (s : State) : Host.Outcome State Fault Refusal :=
  .next (match pixelAt x y with
    | some (c, r) => (s.setFb (fbClearPixel s.fb c r)).answer 0#24
    | none => s.answer 0#24)

/-- GET_PIXEL (40_framebuffer.md R74). Off the canvas: `valid = 0`, `pix = 0` (the spec's own decision D5, log 16). -/
def execGetPixel (x y : Int) (s : State) : Host.Outcome State Fault Refusal :=
  .next (match pixelAt x y with
    | some (c, r) => s.answer (pixelData true (pixel s.fb c r))
    | none => s.answer (pixelData false false))

/-- CLEAR_ALL (40_framebuffer.md R75). -/
def execClearAll (s : State) : Host.Outcome State Fault Refusal :=
  .next ((s.setFb Memory.cleared).answer 0#24)

/-- RAW_READ (40_framebuffer.md R76). -/
def execRawRead (i : Nat) (s : State) : Host.Outcome State Fault Refusal :=
  .next (match byteAt i with
    | some k => s.answer (byteData (memRead1 s.fb k))
    | none => s.raise .preconditionViolation)

end Sys2Proof.Machine
end

