-- ==== Sys2Proof/Machine/Translator.lean ====
section
/-! DEFINITION. The Graphics-Address Translator (42_address_translator.md): the translation function, its inverse,
XLATE, and the micro-operation SET_ADDR. -/

namespace Sys2Proof.Machine

/-- `xlate(r, g)` (42_address_translator.md R93). It has no value outside its domain (R95): its operand types are the
domain. -/
def xlate (r : Row) (g : Group) : Vertical × Horizontal :=
  if h : r.val < 32 then (⟨r.val, h⟩, ⟨g.val, by omega⟩)
  else (⟨r.val - 32, by omega⟩, ⟨g.val + 8, by omega⟩)

/-- The inverse of `xlate`: `r = v + 32*(h div 8)`, `g = h mod 8` (42_address_translator.md R97). -/
def unxlate (v : Vertical) (h : Horizontal) : Row × Group :=
  (⟨v.val + 32 * (h.val / 8), by omega⟩, ⟨h.val % 8, by omega⟩)

/-- XLATE (42_address_translator.md R94): the address is returned, nothing is sent. -/
def execXlate (r g : Nat) (s : State) : Host.Outcome State Fault Refusal :=
  .next (match wordPosition r g with
    | some (r', g') => s.answer (addressData (xlate r' g').1 (xlate r' g').2)
    | none => s.raise .preconditionViolation)

/-- The logical byte of the first address packet: the base OR-ed with the vertical part (30_encoding.md R60). -/
def verticalByte (p : Params) (v : Vertical) : Byte := p.cmdSetGaddr ||| BitVec.ofNat 8 v.val

/-- The logical byte of the second address packet: the base OR-ed with the horizontal part (30_encoding.md R60). -/
def horizontalByte (p : Params) (h : Horizontal) : Byte := p.cmdSetGaddr ||| BitVec.ofNat 8 h.val

/-- `SET_ADDR v, h` for row `r`: two command packets, vertical first; if the first fails the second is not attempted
(42_address_translator.md R96). -/
def setAddr (p : Params) (r : Row) (a : Vertical × Horizontal) : List Act :=
  [sendCmd p (.addrVertical r) (verticalByte p a.1), sendCmd p (.addrHorizontal r) (horizontalByte p a.2)]

end Sys2Proof.Machine
end

