-- ==== Sys2Proof/Machine/Sequencer.lean ====
section
/-! DEFINITION. The sequencer: INIT and FLUSH (43_sequencer.md). Each is one step of the model, as R14 allows; its
port actions are listed in the order the pseudocode produces them and run one by one. -/

namespace Sys2Proof.Machine

/-- The logical byte of an initialization command (30_encoding.md R59). -/
def InitCommand.byte (p : Params) : InitCommand → Byte
  | .funcBasic => p.cmdFuncBasic
  | .funcExt => p.cmdFuncExt
  | .gfxOn => p.cmdGfxOn

/-- One initialization command and its mandatory settle delay (43_sequencer.md R100, R110). -/
def initCommand (p : Params) (c : InitCommand) : List Act :=
  [sendCmd p (.initSend c) (c.byte p), .settle (.initSettle c) p.tInitSettle]

/-- The body of INIT (43_sequencer.md R100). -/
def initActs (p : Params) : List Act :=
  [.select true] ++ initCommand p .funcBasic ++ [.toMode .basic] ++ initCommand p .funcExt ++
    initCommand p .gfxOn ++ [.toMode .extgfx, .select false]

/-- One 16-bit data write: high byte, low byte, and a settle delay if the parameter is not 0 (43_sequencer.md R102,
30_encoding.md R61). -/
def wordActs (p : Params) (fb : Memory) (r : Row) (g : Group) : List Act :=
  [sendData p (.dataHigh r g) ((wordAt fb r g).extractLsb' 8 8),
    sendData p (.dataLow r g) ((wordAt fb r g).extractLsb' 0 8)] ++
    settleIfAny (.dataSettle r g) p.tDataSettle

/-- One row transfer: the address-set for `xlate(r, 0)`, its settle delay, the eight words, and a settle delay if the
parameter is not 0 (43_sequencer.md R102, R103). -/
def rowActs (p : Params) (fb : Memory) (r : Row) : List Act :=
  setAddr p r (xlate r 0) ++ [.settle (.addrSettle r) p.tAddrSettle] ++
    (List.finRange 8).flatMap (wordActs p fb r) ++ settleIfAny (.rowSettle r) p.tRowSettle

/-- The body of FLUSH: rows 0 to 63 in increasing order (43_sequencer.md R102, R106). -/
def flushActs (p : Params) (fb : Memory) : List Act :=
  [.select true] ++ (List.finRange 64).flatMap (rowActs p fb) ++ [.select false]

/-- How INIT ends: OK; or on a failed write `MODE <- UNINIT`, `CsSet(0)`, TransportError (43_sequencer.md R100, R101);
or in a call that never returns, with no response (60_exceptions.md R119). -/
def concludeInit : Ending × State → State
  | (.done, s) => s.answer 0#24
  | (.failed, s) => ((s.setMode .uninit).csSet false).raise .transportError
  | (.stalled, s) => s

/-- How FLUSH ends: OK; or on a failed write `CsSet(0)`, TransportError (43_sequencer.md R102, R104); or in a call
that never returns, with no response (60_exceptions.md R119). -/
def concludeFlush : Ending × State → State
  | (.done, s) => s.answer 0#24
  | (.failed, s) => (s.csSet false).raise .transportError
  | (.stalled, s) => s

/-- INIT (43_sequencer.md R100, R101, R109). -/
def execInit (s : State) : Host.Outcome State Fault Refusal :=
  .next (if s.mode = .uninit then concludeInit (runActs (initActs Config.block) s)
    else s.raise .alreadyInitialized)

/-- FLUSH (43_sequencer.md R102, R104, R109). -/
def execFlush (s : State) : Host.Outcome State Fault Refusal :=
  .next (if s.mode = .extgfx then concludeFlush (runActs (flushActs Config.block s.fb) s)
    else s.raise .notInitialized)

end Sys2Proof.Machine
end

