-- ==== Sys2Proof/Machine/Dispatch.lean ====
section
/-! DEFINITION. The meaning of every operation of the opcode table, one arm each. -/

namespace Sys2Proof.Machine

def exec (i : Instr) (s : State) : Host.Outcome State Fault Refusal :=
  match i with
  | .setPixel x y => Sys2Proof.Machine.execSetPixel x y s
  | .clearPixel x y => Sys2Proof.Machine.execClearPixel x y s
  | .getPixel x y => Sys2Proof.Machine.execGetPixel x y s
  | .clearAll => Sys2Proof.Machine.execClearAll s
  | .rawRead n => Sys2Proof.Machine.execRawRead n s
  | .encode value rs rw => Sys2Proof.Machine.execEncode value rs rw s
  | .xlate r g => Sys2Proof.Machine.execXlate r g s
  | .init => Sys2Proof.Machine.execInit s
  | .flush => Sys2Proof.Machine.execFlush s

end Sys2Proof.Machine
end

