-- ==== Sys2Proof/Machine/Step.lean ====
section
/-! DEFINITION. One step of the block: the host's next move (70_reset_and_hazards.md R143, R144). -/

namespace Sys2Proof.Machine

/-- One step. A reset takes the block to the state of R130, abandoning an operation in progress (R129; log 12). A
block whose port call never returns has no other step (60_exceptions.md R119; log 4). With no move of the host the
block waits (R143; log 15). A command word runs its operation to completion (10_state.md R25), or is illegal and
answers ILLEGAL_OP (30_encoding.md R55, 60_exceptions.md R116). -/
def step (s : State) : Host.Outcome State Fault Refusal :=
  match s.busy, s.host with
  | _, .reset :: rest => .next ({ s with host := rest }.resetBlock)
  | some p, _ => .fault (.portNeverReturned p)
  | none, [] => .next s
  | none, .command w :: rest =>
    match decode w with
    | .ok i => exec i { s with host := rest }
    | .error _ => .next ({ s with host := rest }.raise .illegalOp)

/-- `s` with the command word of `nbits` bits `w` as the host's next move, and the block idle, so that it is taken up:
the very next step runs it. The block fetches nothing (00_scope.md R3); the host presents the word. Log 1. -/
def State.withFetchWord (s : State) (nbits w : Nat) : State :=
  { s with busy := none, host := .command (tableWord nbits w) :: s.host }

end Sys2Proof.Machine
end

