-- ==== Sys2Proof/Machine/Observer.lean ====
section
/-! DEFINITION. What the output trace means outside the block: the observer model of the controller (20_memory.md R46
to R49, informative, the spec's own decision D19), the panel (R48), the bytes on the wire (60_exceptions.md R114), the
level of the chip-select line (00_scope.md R9). Nothing of it is state of the block (10_state.md R22). Log 14. -/

namespace Sys2Proof.Machine

/-- Which initialization commands the trace shows as answered, in order (20_memory.md R49). It says what was sent, not
what mode the controller is in (70_reset_and_hazards.md R131, U7). -/
inductive Link where
  /-- The next initialization command the observer waits for. -/
  | expects (c : InitCommand)
  /-- The three commands of a successful INIT were answered in order: R47 applies to what follows. -/
  | extended
  deriving DecidableEq, Repr

/-- What the controller has received of an address-set or of a data write that takes two packets. -/
inductive Half where
  | nothing
  | vertical (v : Vertical)
  | left (b : Byte)
  deriving DecidableEq, Repr

/-- The observer's state (20_memory.md R46): `gd v h` is `GD[v][h]`, `av` and `ah` the address register; `none` is a
value that no source gives. `flushed`: a FLUSH has answered OK since the reset, or since the last stream without a
meaning. -/
structure FarEnd where
  link : Link
  half : Half
  av : Option Vertical
  ah : Option Horizontal
  gd : Vertical → Horizontal → Option Word16
  flushed : Bool

/-- The far end of which nothing is known: after the block's reset (20_memory.md R46, 70_reset_and_hazards.md R131),
and after any stream no source gives a meaning to (R49, U9). -/
def FarEnd.unknown : FarEnd := ⟨.expects .funcBasic, .nothing, none, none, fun _ _ => none, false⟩

/-- The initialization command after `c` (43_sequencer.md R100). -/
def InitCommand.then : InitCommand → Link
  | .funcBasic => .expects .funcExt
  | .funcExt => .expects .gfxOn
  | .gfxOn => .extended

/-- `GD[v][h]` replaced by `w`. -/
def FarEnd.poke (o : FarEnd) (v : Vertical) (h : Horizontal) (w : Option Word16) :
    Vertical → Horizontal → Option Word16 :=
  fun v' h' => if v' = v ∧ h' = h then w else o.gd v' h'

/-- `AH + 1`; unknown after 15 (20_memory.md R47, U11). -/
def Horizontal.advance (h : Horizontal) : Option Horizontal := if k : h.val < 15 then some ⟨h.val + 1, by omega⟩ else none

/-- A data write of the word `w`: `GD[AV][AH] <- w`, then `AH <- AH + 1` (20_memory.md R47). With an unknown address
any word could have been written. -/
def FarEnd.writeWord (o : FarEnd) (w : Word16) : FarEnd :=
  match o.av, o.ah with
  | some v, some h => { o with half := .nothing, ah := Horizontal.advance h, gd := o.poke v h (some w) }
  | _, _ => { o with half := .nothing, ah := none, gd := fun _ _ => none }

/-- A command byte received in an answered packet with `rs = 0` (20_memory.md R47, R49; 30_encoding.md R59, R60). -/
def FarEnd.command (p : Params) (o : FarEnd) (v : Byte) : FarEnd :=
  match o.link, o.half with
  | .expects c, _ => if v = c.byte p then { o with link := c.then } else .unknown
  | .extended, .nothing =>
    if v &&& 0xE0#8 = p.cmdSetGaddr then { o with half := .vertical (BitVec.toFin (v.extractLsb' 0 5)) } else .unknown
  | .extended, .vertical a =>
    if v &&& 0xF0#8 = p.cmdSetGaddr then
      { o with half := .nothing, av := some a, ah := some (BitVec.toFin (v.extractLsb' 0 4)) }
    else .unknown
  | .extended, .left _ => .unknown

/-- A data byte received in an answered packet with `rs = 1` (20_memory.md R47, R49; 30_encoding.md R61). -/
def FarEnd.data (o : FarEnd) (b : Byte) : FarEnd :=
  match o.link, o.half with
  | .extended, .nothing => { o with half := .left b }
  | .extended, .left a => o.writeWord (a ++ b)
  | _, _ => .unknown

/-- A packet that failed, in extended graphics mode: any value for the address register, and, for a data packet, for
the word being written (20_memory.md R49, 93_implementation_defined.md U8). -/
def FarEnd.spoil (o : FarEnd) (isData : Bool) : FarEnd :=
  match isData, o.av, o.ah with
  | false, _, _ => { o with half := .nothing, av := none, ah := none }
  | true, some v, some h => { o with half := .nothing, av := none, ah := none, gd := o.poke v h none }
  | true, _, _ => { o with half := .nothing, av := none, ah := none, gd := fun _ _ => none }

/-- A packet whose `TxWrite` answered `ok`. -/
def FarEnd.received (p : Params) (o : FarEnd) (k : Packet) : FarEnd :=
  match decodePacket p k with
  | some ⟨v, false, false⟩ => o.command p v
  | some ⟨v, true, false⟩ => o.data v
  | _ => .unknown

/-- A packet whose `TxWrite` answered `fail`. Outside extended graphics mode nothing is known after it (43_sequencer.md
R101). -/
def FarEnd.cutShort (p : Params) (o : FarEnd) (k : Packet) : FarEnd :=
  match o.link, decodePacket p k with
  | .extended, some ⟨_, rs, false⟩ => o.spoil rs
  | _, _ => .unknown

/-- What one event does to what is tracked (20_memory.md R47, R49). -/
def FarEnd.step (p : Params) (o : FarEnd) : Event → FarEnd
  | .cs _ => o
  | .dly _ => o
  | .tx k .ok => o.received p k
  | .tx k .fail => o.cutShort p k

/-- The observer's bookkeeping. -/
structure Observer where
  /-- What the answered packets amount to by R47, whether or not it is known. -/
  tracked : FarEnd
  /-- How many packets have been answered since chip select was last asserted. -/
  answered : Nat

/-- The observer before any event. -/
def Observer.start : Observer := ⟨.unknown, 0⟩

/-- How many packets a FLUSH that answers OK sends (43_sequencer.md R107). -/
def flushPacketCount : Nat := 1152

/-- The far end when chip select is released: after all the packets of a FLUSH, sent to a controller whose
initialization commands were answered, that FLUSH has answered OK. -/
def Observer.release (o : Observer) : FarEnd :=
  if o.answered = flushPacketCount ∧ o.tracked.link = .extended then { o.tracked with flushed := true } else o.tracked

/-- The bookkeeping after one event. -/
def Observer.step (p : Params) (o : Observer) : Event → Observer
  | .cs true => ⟨o.tracked, 0⟩
  | .cs false => ⟨o.release, o.answered⟩
  | .dly _ => o
  | .tx k .ok => ⟨FarEnd.step p o.tracked (.tx k .ok), o.answered + 1⟩
  | .tx k .fail => ⟨FarEnd.step p o.tracked (.tx k .fail), o.answered⟩

/-- The bookkeeping after the trace `out`. -/
def watch (p : Params) (out : List Event) : Observer := out.foldl (Observer.step p) .start

/-- What is known of the far end: `GD`, `AV` and `AH` "hold unknown values" until the first successful FLUSH
(20_memory.md R46, 70_reset_and_hazards.md R131, U7), and then what is tracked. -/
def FarEnd.known (o : FarEnd) : FarEnd :=
  if o.flushed then o else { o with av := none, ah := none, gd := fun _ _ => none }

/-- What is known of the far end after the trace `out`, taken as all that was sent. The model's choice (log 4, log 21): a
`TxWrite` that never returns has left no event, so `observe s.out` counts nothing of its packet. What is known while
a block is stuck in one is `State.farEnd`. -/
def observe (p : Params) (out : List Event) : FarEnd := (watch p out).tracked.known

/-- The panel pixel at `(x, y)` (20_memory.md R48). -/
def FarEnd.panel (o : FarEnd) (x : Column) (y : Row) : Option Bool :=
  if h : y.val < 32 then (o.gd ⟨y.val, h⟩ ⟨x.val / 16, by omega⟩).map (·.getLsbD (15 - x.val % 16))
  else (o.gd ⟨y.val - 32, by omega⟩ ⟨x.val / 16 + 8, by omega⟩).map (·.getLsbD (15 - x.val % 16))

/-- The bytes of a packet in the order they are handed to the transport (20_memory.md R34). -/
def Packet.bytes (k : Packet) : List Byte := [k.b0, k.b1, k.b2]

/-- The bytes that reached the wire by the `n`-th event: all three of an answered packet, an unknown prefix of a failed
one (60_exceptions.md R114, U13; the free value of log 17). -/
def Event.wireBytes (n : Nat) : Event → List Byte
  | .tx k .ok => k.bytes
  | .tx k .fail => k.bytes.take (Config.failedPacketBytes n)
  | .cs _ => []
  | .dly _ => []

/-- The bytes that reached the wire by the trace `out`, in order (20_memory.md R43). The model's choice (log 4, log 21):
a `TxWrite` that never returns has left no event and counts no byte here. What a block stuck in one may have put on the
wire is `State.wire`. -/
def wireBytes (out : List Event) : List Byte := out.zipIdx.flatMap fun (e, n) => e.wireBytes n

/-! ### While a `TxWrite` never returns -/

/-- The packet that the port call hands to the transport; a `Delay` hands none (43_sequencer.md R100, R102). -/
def SeqPoint.packet (p : Params) (fb : Memory) : SeqPoint → Option Packet
  | .initSend c => some (encodePacket p (c.byte p) false false)
  | .initSettle _ => none
  | .addrVertical r => some (encodePacket p (verticalByte p (xlate r 0).1) false false)
  | .addrHorizontal r => some (encodePacket p (horizontalByte p (xlate r 0).2) false false)
  | .addrSettle _ => none
  | .dataHigh r g => some (encodePacket p (memRead1 fb (leftIndex r g)) true false)
  | .dataLow r g => some (encodePacket p (memRead1 fb (rightIndex r g)) true false)
  | .dataSettle _ _ => none
  | .rowSettle _ => none

/-- The packet of the `TxWrite` in which the block is stuck, if it is stuck in one. -/
def State.pendingPacket (p : Params) (s : State) : Option Packet := s.busy.bind (SeqPoint.packet p s.fb)

/-- What may have been sent: the trace, and after it the packet of a `TxWrite` that has not returned, as one cut short.
The spec is silent on how much of such a packet the controller has; the model's choice is to know no more of it than of
a packet that failed (20_memory.md R49, 60_exceptions.md R114, R119). Log 21. -/
def State.sent (p : Params) (s : State) : List Event :=
  s.out ++ (s.pendingPacket p).toList.map fun k => .tx k .fail

/-- What is known of the far end in the state `s`. Log 21. -/
def State.farEnd (p : Params) (s : State) : FarEnd := observe p (s.sent p)

/-- The bytes that reached the wire by the state `s`, a prefix of free length of a packet cut short. Log 17, log 21. -/
def State.wire (p : Params) (s : State) : List Byte := wireBytes (s.sent p)

/-- The electrical level of the chip-select line (00_scope.md R9, 60_exceptions.md R127). -/
def csLevel (p : Params) (selected : Bool) : Bool := if selected then p.csActive else !p.csActive

end Sys2Proof.Machine
end

