-- ==== Sys2Proof/Machine/Pseudo.lean ====
section
/-! DEFINITION. Runs, and the pseudo-operations RAW_BYTES, DRAW and CONSTRUCT, which stand for lists of the host's
moves (30_encoding.md R65, R66, R67; 70_reset_and_hazards.md R143). -/

namespace Sys2Proof.Machine

/-- How a run stands when no move is left: over, with its end state, if the block is idle. A run of operations with a
port call that never returns "is not over and has no end state" (70_reset_and_hazards.md R143, R140): it is stuck, with
the fault of log 4. -/
def endOfRun (s : State) : Host.Outcome State Fault Refusal :=
  match s.busy with
  | none => .next s
  | some q => .fault (.portNeverReturned q)

/-- A run: the host presents its moves one at a time, each after the response of the one before
(70_reset_and_hazards.md R143, R144). For a list of operations it answers a next state exactly when the run is over, and
that is its end state. The model's choice, log 23: R143 speaks of lists of operations only, and here a reset may stand
among the moves. A reset ends what was in progress (log 12), and the list is over if the block is idle after its last
move, also when that move is a reset, or when a reset has abandoned a call that never returned. -/
def runMoves : List HostMove → State → Host.Outcome State Fault Refusal
  | [], s => endOfRun s
  | m :: ms, s =>
    match step { s with host := [m] } with
    | .next t => runMoves ms t
    | .fault f => .fault f
    | .refused r => .refused r

/-- The run of the moves from `s` is over, with the end state `t` (70_reset_and_hazards.md R143; for moves with a reset
among them the model's choice, log 23). -/
def RunOver (moves : List HostMove) (s t : State) : Prop := runMoves moves s = .next t

/-- The moves that present a list of operations, one command word each (30_encoding.md R64). The model's choice, log 22:
an operation with an operand that does not fit its field has no command word (R53), and none is presented for it. So an
item of DRAW whose coordinate is outside -32768..32767 is ignored, as every item off the canvas is (40_framebuffer.md
R77), and never wraps onto the canvas. -/
def present (ops : List Instr) : List HostMove :=
  (ops.filter fun i => i.wellFormed).map fun i => .command (encode i)

/-- The run of a list of operations. -/
def runOps (ops : List Instr) (s : State) : Host.Outcome State Fault Refusal := runMoves (present ops) s

/-- RAW_BYTES: `RAW_READ 0; RAW_READ 1; ...; RAW_READ 1023` (30_encoding.md R65). -/
def rawBytes : List Instr := (List.range 1024).map .rawRead

/-- An item of the draw capability: a coordinate and on or off (30_encoding.md R66). -/
structure DrawItem where
  x : Int
  y : Int
  on : Bool
  deriving DecidableEq, Repr

/-- The operation an item stands for (30_encoding.md R66). -/
def DrawItem.op (d : DrawItem) : Instr := if d.on then .setPixel d.x d.y else .clearPixel d.x d.y

/-- DRAW: one SET_PIXEL or CLEAR_PIXEL per item, in list order (30_encoding.md R66, 40_framebuffer.md R77). For an item
that no command word can carry, see `present`: log 22. -/
def draw (items : List DrawItem) : List Instr := items.map DrawItem.op

/-- CONSTRUCT: reset, then INIT (30_encoding.md R67, 43_sequencer.md R108). -/
def construct : List HostMove := [.reset, .command (encode .init)]

end Sys2Proof.Machine
end

