-- ==== Sys2Proof/Safety.lean ====
section
/-! DEFINITION. The terms claims are stated in: a platform that answers well, the packets and traces the spec's
rules write out, what a good state is. -/

namespace Sys2Proof.Machine

/-! ### The families of operations -/

/-- The operations of the Bit-Packed Framebuffer (40_framebuffer.md). -/
def isFramebuffer : Instr → Bool
  | .setPixel _ _ => true
  | .clearPixel _ _ => true
  | .getPixel _ _ => true
  | .clearAll => true
  | .rawRead _ => true
  | .encode _ _ _ => false
  | .xlate _ _ => false
  | .init => false
  | .flush => false

/-- The operations of the sequencer, the only ones that drive a port (10_state.md R27, 43_sequencer.md R99). -/
def isSequencer : Instr → Bool
  | .setPixel _ _ => false
  | .clearPixel _ _ => false
  | .getPixel _ _ => false
  | .clearAll => false
  | .rawRead _ => false
  | .encode _ _ _ => false
  | .xlate _ _ => false
  | .init => true
  | .flush => true

/-- The operations that write FB (10_state.md R16, R27). -/
def writesFb : Instr → Bool
  | .setPixel _ _ => true
  | .clearPixel _ _ => true
  | .getPixel _ _ => false
  | .clearAll => true
  | .rawRead _ => false
  | .encode _ _ _ => false
  | .xlate _ _ => false
  | .init => false
  | .flush => false

/-! ### The platform -/

/-- "every `TxWrite` answered `ok`" (60_exceptions.md R125), for the coming `n` calls. -/
abbrev State.TransportOk (s : State) (n : Nat) : Prop := ∀ k < n, s.txAnswer k = .answered .ok

/-- "every `Delay` returns" (70_reset_and_hazards.md R140), for the coming `n` calls. -/
abbrev State.DelaysReturn (s : State) (n : Nat) : Prop := ∀ k < n, s.delayAnswer k = .returned

/-! ### The traces of 43_sequencer.md, written out -/

/-- The packet of an initialization command (30_encoding.md R59). -/
def initPacket (p : Params) (c : InitCommand) : Packet := encodePacket p (c.byte p) false false

/-- INIT's commands in order (30_encoding.md R59). -/
def initCommands : List InitCommand := [.funcBasic, .funcExt, .gfxOn]

/-- The trace of a successful INIT (43_sequencer.md R100). -/
def initTrace (p : Params) : List Event :=
  [.cs true, .tx (initPacket p .funcBasic) .ok, .dly p.tInitSettle, .tx (initPacket p .funcExt) .ok,
    .dly p.tInitSettle, .tx (initPacket p .gfxOn) .ok, .dly p.tInitSettle, .cs false]

/-- Byte `k` of row `r`: `FB[16*r + k]` (43_sequencer.md R103). -/
def rowByte (r : Row) (k : Fin 16) : ByteIndex := ⟨16 * r.val + k.val, by omega⟩

/-- The 18 packets of row `r`: two of the address-set for `xlate(r, 0)`, then the 16 row bytes in index order
(43_sequencer.md R103). -/
def rowPackets (p : Params) (fb : Memory) (r : Row) : List Packet :=
  [encodePacket p (p.cmdSetGaddr ||| BitVec.ofNat 8 (xlate r 0).1.val) false false,
    encodePacket p (p.cmdSetGaddr ||| BitVec.ofNat 8 (xlate r 0).2.val) false false] ++
    (List.finRange 16).map fun k => encodePacket p (memRead1 fb (rowByte r k)) true false

/-- The 1152 packets of a FLUSH, in order (43_sequencer.md R107). -/
def flushPackets (p : Params) (fb : Memory) : List Packet := (List.finRange 64).flatMap (rowPackets p fb)

/-- A delay event, if the parameter is not zero (43_sequencer.md R110). -/
def dlyIfAny (n : Nat) : List Event := if 0 < n then [.dly n] else []

/-- The trace of one row of a successful FLUSH (43_sequencer.md R102, R103, R110). -/
def rowTrace (p : Params) (fb : Memory) (r : Row) : List Event :=
  [.tx (encodePacket p (p.cmdSetGaddr ||| BitVec.ofNat 8 (xlate r 0).1.val) false false) .ok,
    .tx (encodePacket p (p.cmdSetGaddr ||| BitVec.ofNat 8 (xlate r 0).2.val) false false) .ok,
    .dly p.tAddrSettle] ++
    (List.finRange 8).flatMap (fun g =>
      [.tx (encodePacket p (memRead1 fb (leftIndex r g)) true false) .ok,
        .tx (encodePacket p (memRead1 fb (rightIndex r g)) true false) .ok] ++ dlyIfAny p.tDataSettle) ++
    dlyIfAny p.tRowSettle

/-- The trace of a successful FLUSH of the framebuffer `fb` (43_sequencer.md R102, R106). -/
def flushTrace (p : Params) (fb : Memory) : List Event :=
  [.cs true] ++ (List.finRange 64).flatMap (rowTrace p fb) ++ [.cs false]

/-- How many `Delay` calls a successful FLUSH makes (43_sequencer.md R107). -/
def flushDelays (p : Params) : Nat :=
  64 + (if 0 < p.tDataSettle then 512 else 0) + (if 0 < p.tRowSettle then 64 else 0)

/-- The packets of a trace with the transport's answers, in order. -/
def txEvents (out : List Event) : List (Packet × TxResult) :=
  out.filterMap fun | .tx k r => some (k, r) | .cs _ => none | .dly _ => none

/-- The events of a trace before its `Tx` event number `k`, counted from 0. -/
def cutBefore : Nat → List Event → List Event
  | _, [] => []
  | 0, .tx _ _ :: _ => []
  | k + 1, .tx p r :: es => .tx p r :: cutBefore k es
  | k, .cs b :: es => .cs b :: cutBefore k es
  | k, .dly n :: es => .dly n :: cutBefore k es

/-- The events of a trace up to its `Dly` event number `k`, counted from 0, and that event. -/
def cutThroughDelay : Nat → List Event → List Event
  | _, [] => []
  | 0, .dly n :: _ => [.dly n]
  | k + 1, .dly n :: es => .dly n :: cutThroughDelay k es
  | k, .cs b :: es => .cs b :: cutThroughDelay k es
  | k, .tx p r :: es => .tx p r :: cutThroughDelay k es

/-- How many `Dly` events a trace has. -/
def dlyCount (out : List Event) : Nat :=
  out.countP fun | .dly _ => true | .cs _ => false | .tx _ _ => false

/-- The chip-select level after an event. -/
def Event.csAfter (b : Bool) : Event → Bool
  | .cs c => c
  | .tx _ _ => b
  | .dly _ => b

/-- The chip-select level a trace leaves: that of its last `Cs` event; deselected if it has none
(70_reset_and_hazards.md R129). -/
def traceCs (out : List Event) : Bool := out.foldl Event.csAfter false

/-! ### A good state -/

/-- The MODE in which INIT or FLUSH makes the port call `q` (43_sequencer.md R100, R102). -/
def SeqPoint.mode : SeqPoint → Mode
  | .initSend .funcBasic => .uninit
  | .initSettle .funcBasic => .uninit
  | .initSend _ => .basic
  | .initSettle _ => .basic
  | _ => .extgfx

/-- How long the port call `q` asks the delay port to wait; none if `q` is a `TxWrite`, or a `Delay` that the parameters
leave out (43_sequencer.md R110). -/
def SeqPoint.delay (p : Params) : SeqPoint → Option Nat
  | .initSend _ => none
  | .initSettle _ => some p.tInitSettle
  | .addrVertical _ => none
  | .addrHorizontal _ => none
  | .addrSettle _ => some p.tAddrSettle
  | .dataHigh _ _ => none
  | .dataLow _ _ => none
  | .dataSettle _ _ => if 0 < p.tDataSettle then some p.tDataSettle else none
  | .rowSettle _ => if 0 < p.tRowSettle then some p.tRowSettle else none

/-- The number of an initialization command, counted from 0 (43_sequencer.md R100). -/
def InitCommand.number : InitCommand → Nat
  | .funcBasic => 0
  | .funcExt => 1
  | .gfxOn => 2

/-- How many `TxWrite` calls the operation makes before the port call `q` (43_sequencer.md R100, R102, R107). -/
def SeqPoint.sendsBefore : SeqPoint → Nat
  | .initSend c => c.number
  | .initSettle c => c.number + 1
  | .addrVertical r => 18 * r.val
  | .addrHorizontal r => 18 * r.val + 1
  | .addrSettle r => 18 * r.val + 2
  | .dataHigh r g => 18 * r.val + 2 + 2 * g.val
  | .dataLow r g => 18 * r.val + 3 + 2 * g.val
  | .dataSettle r g => 18 * r.val + 4 + 2 * g.val
  | .rowSettle r => 18 * r.val + 18

/-- How many `Delay` calls FLUSH makes after each word: 1 or 0 (43_sequencer.md R110). -/
def wordDelays (p : Params) : Nat := if 0 < p.tDataSettle then 1 else 0

/-- How many `Delay` calls FLUSH makes in one row (43_sequencer.md R110). -/
def rowDelays (p : Params) : Nat := 1 + 8 * wordDelays p + if 0 < p.tRowSettle then 1 else 0

/-- How many `Delay` calls the operation makes before the port call `q` (43_sequencer.md R100, R102, R110). -/
def SeqPoint.delaysBefore (p : Params) : SeqPoint → Nat
  | .initSend c => c.number
  | .initSettle c => c.number
  | .addrVertical r => rowDelays p * r.val
  | .addrHorizontal r => rowDelays p * r.val
  | .addrSettle r => rowDelays p * r.val
  | .dataHigh r g => rowDelays p * r.val + 1 + wordDelays p * g.val
  | .dataLow r g => rowDelays p * r.val + 1 + wordDelays p * g.val
  | .dataSettle r g => rowDelays p * r.val + 1 + wordDelays p * g.val
  | .rowSettle r => rowDelays p * r.val + 1 + wordDelays p * 8

/-- A packet that INIT and FLUSH may send: a write packet of the codec, "driver always writes" (30_encoding.md R57,
41_packet_codec.md R85). -/
def Packet.Written (p : Params) (k : Packet) : Prop := ∃ value rs, k = encodePacket p value rs false

/-- What holds of every state a run reaches, and every step keeps. -/
structure Inv (s : State) : Prop where
  /-- The framebuffer is in canonical form: 1024 bytes and no others (10_state.md R16). -/
  fbCanonical : s.fb.wf
  /-- "at operation boundaries `MODE` is UNINIT or EXTGFX" (10_state.md R18). -/
  idleMode : s.busy = none → s.mode ≠ .basic
  /-- While an operation is in progress, MODE is the one in which it makes the call it waits for. -/
  busyMode : ∀ q, s.busy = some q → s.mode = q.mode
  /-- The module is selected exactly while an operation with I/O is in progress (43_sequencer.md R111). -/
  selected : s.cs = s.busy.isSome
  /-- The chip-select line is at the level of the last `Cs` event (60_exceptions.md R127). -/
  csOfTrace : s.cs = traceCs s.out
  /-- `DATA = 0` with every non-OK status (60_exceptions.md R113). -/
  errorData : ∀ r ∈ s.rsp, r.status ≠ .ok → r.data = 0#24
  /-- Every packet handed to the transport is a write packet of the codec. -/
  written : ∀ k r, .tx k r ∈ s.out → k.Written Config.block
  /-- In UNINIT, between operations, the observer waits for the answer to the first initialization command
  (20_memory.md R49, 43_sequencer.md R101). -/
  farEndUninit : s.busy = none → s.mode = .uninit → (observe Config.block s.out).link = .expects .funcBasic
  /-- In EXTGFX, between operations, the three initialization commands have been answered in order, no packet against
  the protocol after them (20_memory.md R49). -/
  farEndExtended : s.busy = none → s.mode = .extgfx → (observe Config.block s.out).link = .extended
  /-- Between operations no address-set and no data write is half sent. -/
  farEndAtRest : s.busy = none → (observe Config.block s.out).half = .nothing

end Sys2Proof.Machine
end

