-- ==== Sys2Proof/Certificates/Slice0/Obligations.lean ====
section
/-! DEFINITION. The obligations: what the provers are asked to prove of the model. Each docstring names the rules of
spec/ it rests on; "the spec's own decision" marks a clause the spec decided where its source is silent. -/

open Sys2Proof Sys2Proof.Machine

/-! ### The command word (30_encoding.md) -/

/-- Decoding an encoded well-formed operation gives it back, every operand at every value its field admits (R51, R53,
R54; the encoding is the spec's own decision D2). -/
def Obligations.DecodeOfEncode : Prop := ∀ i : Instr, i.WellFormed → decode (encode i) = .ok i

/-- A word that decodes is the encoding of the well-formed operation it decodes to: each word has one meaning, each
operation one word (R50, R51; decision D2). -/
def Obligations.EncodeOfDecode : Prop :=
  ∀ (w : Cmd) (i : Instr), decode w = .ok i → i.WellFormed ∧ encode i = w

/-- The legal words are exactly the words that match a row of the opcode table, a word decodes to the operation of the
row it matches, and no word matches two rows (R54, opcode_table.json; decision D2). -/
def Obligations.LegalWordsAreTableRows : Prop :=
  (opcodeTable.Pairwise fun a b => ∀ w : Cmd, ¬(a.Matches w ∧ b.Matches w)) ∧
  (∀ w : Cmd, (∃ i, decode w = .ok i) ↔ ∃ t ∈ opcodeTable, t.Matches w) ∧
  ∀ (w : Cmd) (i : Instr), decode w = .ok i → ∃ t ∈ opcodeTable, t.Matches w ∧ t.mnemonic = i.mnemonic

/-- A word is illegal exactly when its `OP` is none of the nine values or a "must be 0" field of its format is not 0
(R55, R51; decision D18). -/
def Obligations.IllegalWordCondition : Prop :=
  ∀ w : Cmd, (∃ r, decode w = .error r) ↔
    (opField w ∉ [0x01#8, 0x02#8, 0x03#8, 0x04#8, 0x05#8, 0x10#8, 0x11#8, 0x20#8, 0x21#8] ∨
      (opField w ∈ [0x04#8, 0x20#8, 0x21#8] ∧ (aField w ≠ 0#16 ∨ bField w ≠ 0#16)) ∨
      (opField w = 0x05#8 ∧ bField w ≠ 0#16) ∨
      (opField w = 0x10#8 ∧ ((aField w).extractLsb' 8 8 ≠ 0#8 ∨ (bField w).extractLsb' 2 14 ≠ 0#14)))

/-- Words written out from the encoding tables decode to the operations they stand for, one of each format and more
(R51, R54, R64; decision D2). -/
def Obligations.SampleWordsDecode : Prop :=
  decode 0x01007F003F#40 = .ok (.setPixel 127 63) ∧ decode 0x01FFFF0005#40 = .ok (.setPixel (-1) 5) ∧
  decode 0x0200030000#40 = .ok (.clearPixel 3 0) ∧ decode 0x0300050001#40 = .ok (.getPixel 5 1) ∧
  decode 0x0400000000#40 = .ok .clearAll ∧ decode 0x0503FF0000#40 = .ok (.rawRead 1023) ∧
  decode 0x1000A50002#40 = .ok (.encode 0xA5#8 false true) ∧ decode 0x11003F0007#40 = .ok (.xlate 63 7) ∧
  decode 0x2000000000#40 = .ok .init ∧ decode 0x2100000000#40 = .ok .flush

/-- The response word: `STATUS = RSP[27:24]`, `DATA = RSP[23:0]`, and the six status codes (30_encoding.md R52,
60_exceptions.md R113; decisions D3, D22). -/
def Obligations.ResponseWordLayout : Prop :=
  (∀ r : Response, r.word.extractLsb' 24 4 = r.status.code ∧ r.word.extractLsb' 0 24 = r.data) ∧
  Status.ok.code = 0#4 ∧ Status.transportError.code = 1#4 ∧ Status.preconditionViolation.code = 2#4 ∧
  Status.illegalOp.code = 3#4 ∧ Status.notInitialized.code = 4#4 ∧ Status.alreadyInitialized.code = 5#4

/-! ### The step: what the host presents (70_reset_and_hazards.md) -/

/-- An idle block whose next command word decodes runs exactly that operation, with the word used up; and a word
placed by `withFetchWord` is run by the very next step (30_encoding.md R50, 70_reset_and_hazards.md R144; the host's
moves as a field of the state are the model's own, log 1). -/
def Obligations.StepRunsDecodedOperation : Prop :=
  (∀ (s : State) (w : Cmd) (rest : List HostMove) (i : Instr), s.busy = none → s.host = .command w :: rest →
    decode w = .ok i → step s = exec i { s with host := rest }) ∧
  ∀ (s : State) (nbits w : Nat) (i : Instr), decodeTableWord nbits w = some i →
    step (s.withFetchWord nbits w) = exec i { s with busy := none }

/-- An illegal word changes no state, appends nothing to OUT, and answers ILLEGAL_OP with DATA 0, in every mode
(30_encoding.md R55, 60_exceptions.md R116, R120; decision D18). -/
def Obligations.IllegalWordAnswered : Prop :=
  ∀ (s : State) (w : Cmd) (rest : List HostMove) (r : Reject), s.busy = none → s.host = .command w :: rest →
    decode w = .error r → step s = .next { s with host := rest, rsp := s.rsp ++ [⟨.illegalOp, 0#24⟩] }

/-- With no move of the host left an idle block waits: nothing changes (70_reset_and_hazards.md R143). A block whose
port call never returns has no step unless it is reset: it is stuck, whatever the host would present
(60_exceptions.md R119, 70_reset_and_hazards.md R140, U5; the stuck state as a fault is the model's, log 4). -/
def Obligations.IdleBlockWaitsAndStuckBlockStops : Prop :=
  (∀ s : State, s.busy = none → s.host = [] → step s = .next s) ∧
  ∀ (s : State) (q : SeqPoint), s.busy = some q → (∀ rest, s.host ≠ .reset :: rest) →
    step s = .fault (.portNeverReturned q)

/-- A reset zeroes FB, sets MODE to UNINIT, abandons an operation in progress, empties OUT and the response port,
leaves chip select deselected, and appends no event; and nothing is then known of the far end: no word of its graphics
RAM, not its address register, no panel pixel (70_reset_and_hazards.md R129, R131, 20_memory.md R46; decision D16; that
the host's further moves and the platform's answers go on is the model's choice, log 19). -/
def Obligations.ResetMoveRestoresReset : Prop :=
  ∀ (s : State) (rest : List HostMove), s.host = .reset :: rest →
    ∃ t, step s = .next t ∧ (∀ i : ByteIndex, memRead1 t.fb i = 0x00#8) ∧ t.mode = .uninit ∧ t.busy = none ∧
      t.out = [] ∧ t.rsp = [] ∧ t.cs = false ∧ t.host = rest ∧ t.tx = s.tx ∧ t.dly = s.dly ∧
      (∀ v h, (observe Config.block t.out).gd v h = none) ∧ (observe Config.block t.out).av = none ∧
      (observe Config.block t.out).ah = none ∧ ∀ x y, (observe Config.block t.out).panel x y = none

/-- The reset values, complete: FB all 0x00, MODE = UNINIT (0), no transient sequencing state, no response pending,
OUT empty; whatever the platform will answer, the block then waits, and any operation may be the first
(70_reset_and_hazards.md R130). -/
def Obligations.ResetValues : Prop :=
  (∀ i : ByteIndex, memRead1 State.reset.fb i = 0x00#8) ∧ State.reset.mode = .uninit ∧ Mode.uninit.code = 0#2 ∧
  State.reset.busy = none ∧ State.reset.rsp = [] ∧ State.reset.out = [] ∧
  ∀ (tx : Feed TxAnswer) (dly : Feed DelayAnswer),
    step { State.reset with host := [], tx := tx, dly := dly } =
      .next { State.reset with host := [], tx := tx, dly := dly } ∧
    ∀ (i : Instr) (host : List HostMove), ∃ t, exec i { State.reset with host := host, tx := tx, dly := dly } = .next t

/-- A run of the host's moves, each presented after the response of the one before, is that many steps of the block
with the moves in its `host` field; and it is over, with an end state, only if the block is then idle
(70_reset_and_hazards.md R143; the field is the model's own, log 1; that a list with a reset among its moves is over
when the block is idle after it is the model's choice, log 23). -/
def Obligations.RunIsIteratedStep : Prop :=
  ∀ (moves : List HostMove) (s : State), s.host = [] →
    (runMoves moves s = match Host.Core.run Sys2Proof.core moves.length { s with host := moves } with
      | .next t => endOfRun t
      | .fault f => .fault f
      | .refused r => .refused r) ∧
    ∀ t, RunOver moves s t → t.busy = none ∧ t.host = []

/-! ### The framebuffer (40_framebuffer.md, 20_memory.md) -/

/-- The addressing function: `byte_index = y*16 + (x div 8)`, `bit_index = 7 - (x mod 8)`, the mask, the pixel as that
bit of that byte, and the three examples (40_framebuffer.md R70). -/
def Obligations.AddressingFormula : Prop :=
  (∀ (x : Column) (y : Row), (byteIndex x y).val = y.val * 16 + x.val / 8 ∧ (bitIndex x).val = 7 - x.val % 8 ∧
    mask x = 1#8 <<< (7 - x.val % 8) ∧
    (mask x).getLsbD (bitIndex x) = true ∧ (∀ b : Fin 8, b ≠ bitIndex x → (mask x).getLsbD b = false) ∧
    ∀ fb : Memory, pixel fb x y = (memRead1 fb (byteIndex x y)).getLsbD (7 - x.val % 8)) ∧
  byteIndex 0 0 = 0 ∧ bitIndex 0 = 7 ∧ mask 0 = 0x80#8 ∧
  byteIndex 127 63 = 1023 ∧ bitIndex 127 = 0 ∧ mask 127 = 0x01#8 ∧
  byteIndex 13 2 = 33 ∧ bitIndex 13 = 2 ∧ mask 13 = 0x04#8

/-- The addressing function is a bijection from the 8192 coordinates onto the 8192 pairs of byte and bit, with the
inverse `y = byte div 16`, `x = 8*(byte mod 16) + (7 - bit)` (40_framebuffer.md R79; the inverse is derived there). -/
def Obligations.AddressingBijection : Prop :=
  Function.Bijective (fun c : Column × Row => (byteIndex c.1 c.2, bitIndex c.1)) ∧
  ∀ (x : Column) (y : Row), y.val = (byteIndex x y).val / 16 ∧
    x.val = 8 * ((byteIndex x y).val % 16) + (7 - (bitIndex x).val)

/-- SET_PIXEL on the canvas: the addressed byte gets the pixel's bit, every other byte, and all else but the response
(OK, 0), stays (40_framebuffer.md R72, R78; "in every MODE" is decision D15). -/
def Obligations.SetPixelResult : Prop :=
  ∀ (x y : Int) (h : 0 ≤ x ∧ x < 128) (k : 0 ≤ y ∧ y < 64) (s : State), ∃ t, exec (.setPixel x y) s = .next t ∧
    memRead1 t.fb (byteIndex (column x h) (row y k)) =
      memRead1 s.fb (byteIndex (column x h) (row y k)) ||| (1#8 <<< (7 - x.toNat % 8)) ∧
    (∀ j, j ≠ byteIndex (column x h) (row y k) → memRead1 t.fb j = memRead1 s.fb j) ∧
    t = { s with fb := t.fb, rsp := s.rsp ++ [⟨.ok, 0#24⟩] }

/-- CLEAR_PIXEL on the canvas: the addressed byte loses the pixel's bit, every other byte, and all else but the
response (OK, 0), stays (40_framebuffer.md R73, R78). -/
def Obligations.ClearPixelResult : Prop :=
  ∀ (x y : Int) (h : 0 ≤ x ∧ x < 128) (k : 0 ≤ y ∧ y < 64) (s : State), ∃ t, exec (.clearPixel x y) s = .next t ∧
    memRead1 t.fb (byteIndex (column x h) (row y k)) =
      memRead1 s.fb (byteIndex (column x h) (row y k)) &&& (0xFF#8 - (1#8 <<< (7 - x.toNat % 8))) ∧
    (∀ j, j ≠ byteIndex (column x h) (row y k) → memRead1 t.fb j = memRead1 s.fb j) ∧
    t = { s with fb := t.fb, rsp := s.rsp ++ [⟨.ok, 0#24⟩] }

/-- A pixel operation whose coordinate is off the canvas is silently ignored: no change but the response OK, with
DATA 0, for GET_PIXEL too (40_framebuffer.md R71, R74; the spec's own decision D5, log 16). -/
def Obligations.OffCanvasIgnored : Prop :=
  ∀ (x y : Int) (s : State), ¬(0 ≤ x ∧ x < 128 ∧ 0 ≤ y ∧ y < 64) →
    exec (.setPixel x y) s = .next { s with rsp := s.rsp ++ [⟨.ok, 0#24⟩] } ∧
    exec (.clearPixel x y) s = .next { s with rsp := s.rsp ++ [⟨.ok, 0#24⟩] } ∧
    exec (.getPixel x y) s = .next { s with rsp := s.rsp ++ [⟨.ok, 0#24⟩] }

/-- GET_PIXEL on the canvas answers `DATA = 2 + pix`, `pix` the addressed bit, and changes nothing else
(40_framebuffer.md R74; the `valid` bit is decision D5). -/
def Obligations.GetPixelResult : Prop :=
  ∀ (x y : Int) (h : 0 ≤ x ∧ x < 128) (k : 0 ≤ y ∧ y < 64) (s : State),
    exec (.getPixel x y) s = .next { s with rsp := s.rsp ++
      [⟨.ok, if (memRead1 s.fb (byteIndex (column x h) (row y k))).getLsbD (7 - x.toNat % 8) then 3#24 else 2#24⟩] }

/-- "`set_pixel(x,y)` then `get_pixel(x,y)` returns on; `clear_pixel(x,y)` then `get_pixel` returns off; pixels
elsewhere are unaffected", and the same on the bytes of FB (40_framebuffer.md R78). -/
def Obligations.PixelWriteThenRead : Prop :=
  ∀ (c : Column) (r : Row) (s : State),
    (∃ t u, exec (.setPixel c.val r.val) s = .next t ∧ exec (.getPixel c.val r.val) t = .next u ∧
      u = { t with rsp := t.rsp ++ [⟨.ok, 3#24⟩] } ∧
      (∀ c' r', (c', r') ≠ (c, r) → pixel u.fb c' r' = pixel s.fb c' r') ∧
      memRead1 u.fb (byteIndex c r) = memRead1 s.fb (byteIndex c r) ||| mask c ∧
      ∀ j, j ≠ byteIndex c r → memRead1 u.fb j = memRead1 s.fb j) ∧
    (∃ t u, exec (.clearPixel c.val r.val) s = .next t ∧ exec (.getPixel c.val r.val) t = .next u ∧
      u = { t with rsp := t.rsp ++ [⟨.ok, 2#24⟩] } ∧
      (∀ c' r', (c', r') ≠ (c, r) → pixel u.fb c' r' = pixel s.fb c' r') ∧
      memRead1 u.fb (byteIndex c r) = memRead1 s.fb (byteIndex c r) &&& (0xFF#8 - mask c) ∧
      ∀ j, j ≠ byteIndex c r → memRead1 u.fb j = memRead1 s.fb j)

/-- CLEAR_ALL: the word is 0x04 with both operand fields 0, any other such word is illegal; all 1024 bytes become
0x00, the response is (OK, 0), nothing else changes, in every MODE; on an already-zero framebuffer nothing changes;
then GET_PIXEL of every coordinate returns off (40_framebuffer.md R75). -/
def Obligations.ClearAllResult : Prop :=
  (∀ w : Cmd, opField w = 0x04#8 →
    (aField w = 0#16 ∧ bField w = 0#16 → decode w = .ok .clearAll) ∧
    (¬(aField w = 0#16 ∧ bField w = 0#16) → decode w = .error (.reservedNotZero 0x04#8))) ∧
  decode 0x0400000000#40 = .ok .clearAll ∧
  ∀ s : State, ∃ t, exec .clearAll s = .next t ∧ (∀ i : ByteIndex, memRead1 t.fb i = 0x00#8) ∧
    t = { s with fb := t.fb, rsp := s.rsp ++ [⟨.ok, 0#24⟩] } ∧
    (s.fb.wf → (∀ i : ByteIndex, memRead1 s.fb i = 0x00#8) → t.fb = s.fb) ∧
    ∀ (c : Column) (r : Row), exec (.getPixel c.val r.val) t = .next { t with rsp := t.rsp ++ [⟨.ok, 2#24⟩] }

/-- RAW_READ answers the byte of an index below 1024, and PRECONDITION_VIOLATION for any other; nothing else changes
(40_framebuffer.md R76; the error is decision D6, the operation decision D23). -/
def Obligations.RawReadResult : Prop :=
  (∀ (i : ByteIndex) (s : State),
    exec (.rawRead i.val) s = .next { s with rsp := s.rsp ++ [⟨.ok, (memRead1 s.fb i).setWidth 24⟩] }) ∧
  ∀ (i : Nat) (s : State), 1024 ≤ i →
    exec (.rawRead i) s = .next { s with rsp := s.rsp ++ [⟨.preconditionViolation, 0#24⟩] }

/-- Two pixel writes to different coordinates commute, two to the same coordinate leave the effect of the later one,
and a repeated one changes nothing more: as equal framebuffers, for a framebuffer in canonical form
(40_framebuffer.md R80, derived there). -/
def Obligations.PixelWritesCommute : Prop :=
  ∀ (s : State) (c c' : Column) (r r' : Row) (on on' : Bool), s.fb.wf →
    ∃ a ab b ba, exec (DrawItem.op ⟨c.val, r.val, on⟩) s = .next a ∧
      exec (DrawItem.op ⟨c'.val, r'.val, on'⟩) a = .next ab ∧
      exec (DrawItem.op ⟨c'.val, r'.val, on'⟩) s = .next b ∧ exec (DrawItem.op ⟨c.val, r.val, on⟩) b = .next ba ∧
      ((c, r) ≠ (c', r') → ab = ba) ∧ ((c, r) = (c', r') → ab.fb = b.fb) ∧
      ((c, r) = (c', r') → on = on' → ab.fb = a.fb)

/-- The number of 1 bits of FB is the number of pixels that are on (40_framebuffer.md R80, derived there). -/
def Obligations.OneBitsArePixelsOn : Prop :=
  ∀ fb : Memory,
    (Finset.univ.filter fun c : Column × Row => pixel fb c.1 c.2 = true).card =
    ∑ i : ByteIndex, (Finset.univ.filter fun b : Fin 8 => (memRead1 fb i).getLsbD b = true).card

/-- One storage, three views: bit `15 - k` of word `(r, g)` is pixel `(16*g + k, r)`, its high byte is the byte at
the even index `16*r + 2*g`, its low byte the next one (20_memory.md R31, R33, R36, derived there). -/
def Obligations.WordViewAgrees : Prop :=
  ∀ (fb : Memory) (r : Row) (g : Group),
    (∀ (k : Fin 16) (c : Column), c.val = 16 * g.val + k.val →
      (wordAt fb r g).getLsbD (15 - k.val) = pixel fb c r) ∧
    (wordAt fb r g).extractLsb' 8 8 = memRead1 fb (leftIndex r g) ∧
    (wordAt fb r g).extractLsb' 0 8 = memRead1 fb (rightIndex r g) ∧
    (leftIndex r g).val = 16 * r.val + 2 * g.val ∧ (rightIndex r g).val = (leftIndex r g).val + 1 ∧
    (leftIndex r g).val / 16 = r.val ∧ (rightIndex r g).val / 16 = r.val

/-- No framebuffer operation performs I/O or waits; its status depends on its operands alone; and none depends on
MODE (40_framebuffer.md R82). -/
def Obligations.FramebufferOpsDoNoIo : Prop :=
  ∀ i : Instr, isFramebuffer i = true →
    (∃ e : Status, ∀ s : State, ∃ t d, exec i s = .next t ∧ t.rsp = s.rsp ++ [⟨e, d⟩] ∧ t.out = s.out ∧ t.cs = s.cs ∧
      t.busy = s.busy ∧ t.mode = s.mode ∧ t.host = s.host ∧ t.tx = s.tx ∧ t.dly = s.dly) ∧
    ∀ (s : State) (m : Mode), ∃ t, exec i s = .next t ∧ exec i { s with mode := m } = .next { t with mode := m }

/-- DRAW applies its items in order: afterwards each pixel is as its last item says, or as before if it has none;
items off the canvas are ignored one by one; every response is OK; nothing is sent and nothing else changes
(30_encoding.md R66, 40_framebuffer.md R77, 70_reset_and_hazards.md R134; decisions D5, D24). For an item whose
coordinate no command word can carry nothing is presented: the model's choice, log 22. -/
def Obligations.DrawAppliesItemsInOrder : Prop :=
  ∀ (items : List DrawItem) (s : State), s.busy = none → s.host = [] →
    ∃ t, runOps (draw items) s = .next t ∧
      (∀ (c : Column) (r : Row), pixel t.fb c r =
        match items.reverse.find? (fun d => d.x = (c.val : Int) ∧ d.y = (r.val : Int)) with
        | some d => d.on
        | none => pixel s.fb c r) ∧
      t = { s with fb := t.fb, rsp := s.rsp ++ List.replicate (present (draw items)).length ⟨.ok, 0#24⟩ } ∧
      ((∀ d ∈ items, Sext16 d.x ∧ Sext16 d.y) → (present (draw items)).length = items.length)

/-- RAW_BYTES reads the whole of FB, byte by byte, and writes nothing (30_encoding.md R65; decision D23). -/
def Obligations.RawBytesReadsWholeFb : Prop :=
  ∀ s : State, s.busy = none → s.host = [] →
    runOps rawBytes s = .next { s with
      rsp := s.rsp ++ (List.finRange 1024).map fun i => ⟨.ok, (memRead1 s.fb i).setWidth 24⟩ }

/-! ### The packet codec (41_packet_codec.md) -/

/-- ENCODE answers the three packet bytes, sync byte `0xF8 | (rw << 2) | (rs << 1)` first, and changes nothing
(41_packet_codec.md R85, R86; `rw = 1` is decision D26, the sync byte's values are general knowledge, log 7). -/
def Obligations.EncodeResult : Prop :=
  ∀ (value : Byte) (rs rw : Bool) (s : State),
    exec (.encode value rs rw) s = .next { s with rsp := s.rsp ++
      [⟨.ok, (0xF8#8 ||| (if rw then 0x04#8 else 0x00#8) ||| (if rs then 0x02#8 else 0x00#8)) ++
        (value &&& 0xF0#8) ++ (value <<< 4)⟩] }

/-- The nibble bytes: byte 1 is `value & 0xF0`, byte 2 is `(value << 4) & 0xFF` = `{value[3:0], 0000}`, both with the
low 4 bits zero, and `value = (byte1 & 0xF0) | (byte2 >> 4)` (30_encoding.md R58). -/
def Obligations.NibbleBytes : Prop :=
  ∀ (p : Params) (value : Byte) (rs rw : Bool), ∃ k, encodePacket p value rs rw = k ∧
    k.b1 = value &&& 0xF0#8 ∧ k.b2 = value <<< 4 ∧ k.b2 = value.extractLsb' 0 4 ++ 0#4 ∧
    k.b1.extractLsb' 0 4 = 0#4 ∧ k.b2.extractLsb' 0 4 = 0#4 ∧ value = (k.b1 &&& 0xF0#8) ||| (k.b2 >>> 4)

/-- For every value and flag combination, whatever the parameters: 3 bytes, the fixed sync pattern in the first
byte's high bits, high nibble then low nibble, low bits zero (41_packet_codec.md R89, 30_encoding.md R57). -/
def Obligations.PacketStructure : Prop :=
  ∀ (p : Params) (value : Byte) (rs rw : Bool), p.wf → ∃ k, encodePacket p value rs rw = k ∧ k.bytes.length = 3 ∧
    k.b0.extractLsb' 3 5 = p.syncHigh ∧ k.b1.extractLsb' 4 4 = value.extractLsb' 4 4 ∧
    k.b2.extractLsb' 4 4 = value.extractLsb' 0 4 ∧ k.b1.extractLsb' 0 4 = 0#4 ∧ k.b2.extractLsb' 0 4 = 0#4

/-- Packet decoding inverts `encode`, which is injective; and a packet that decodes is the encoding of what it carries,
so the well-formed packets are exactly the encoded ones (30_encoding.md R62, derived there). -/
def Obligations.PacketRoundTrip : Prop :=
  ∀ p : Params, p.wf →
    (∀ value rs rw, decodePacket p (encodePacket p value rs rw) = some ⟨value, rs, rw⟩) ∧
    (∀ k y, decodePacket p k = some y → encodePacket p y.value y.rs y.rw = k) ∧
    (∀ k, (∃ y, decodePacket p k = some y) ↔ k.WellFormed p) ∧
    ∀ v v' rs rs' rw rw', encodePacket p v rs rw = encodePacket p v' rs' rw' → v = v' ∧ rs = rs' ∧ rw = rw'

/-! ### The address translator (42_address_translator.md) -/

/-- XLATE answers `(r, g)` for `r < 32`, `(r - 32, g + 8)` for `r >= 32`, and PRECONDITION_VIOLATION when the row or
the group is out of range; nothing else changes (42_address_translator.md R93, R94, R95; the error is decision D6). -/
def Obligations.XlateResult : Prop :=
  (∀ (r g : Nat) (s : State), r < 32 → g < 8 →
    exec (.xlate r g) s = .next { s with rsp := s.rsp ++ [⟨.ok, BitVec.ofNat 24 (256 * r + g)⟩] }) ∧
  (∀ (r g : Nat) (s : State), 32 ≤ r → r < 64 → g < 8 →
    exec (.xlate r g) s = .next { s with rsp := s.rsp ++ [⟨.ok, BitVec.ofNat 24 (256 * (r - 32) + (g + 8))⟩] }) ∧
  ∀ (r g : Nat) (s : State), 64 ≤ r ∨ 8 ≤ g →
    exec (.xlate r g) s = .next { s with rsp := s.rsp ++ [⟨.preconditionViolation, 0#24⟩] }

/-- `xlate` is a bijection from the 512 word positions onto the 512 controller addresses, with the inverse
`r = v + 32*(h div 8)`, `g = h mod 8`; and `xlate(r, g)` is `xlate(r, 0)` with `g` added to the horizontal part
(42_address_translator.md R97, derived there). -/
def Obligations.TranslationBijection : Prop :=
  Function.Bijective (fun c : Row × Group => xlate c.1 c.2) ∧
  ∀ (r : Row) (g : Group),
    r.val = (xlate r g).1.val + 32 * ((xlate r g).2.val / 8) ∧ g.val = (xlate r g).2.val % 8 ∧
    (xlate r g).1 = (xlate r 0).1 ∧ (xlate r g).2.val = (xlate r 0).2.val + g.val

/-! ### The sequencer (43_sequencer.md) -/

/-- INIT in UNINIT with every `TxWrite` answered `ok` and every `Delay` returning: MODE = EXTGFX, OK, the eight events
in order, byte for byte; FB and all else unchanged (43_sequencer.md R100, R110, R111; command values general knowledge,
log 7; the chip-select bracket is decision D13). -/
def Obligations.InitSucceeds : Prop :=
  ∀ s : State, s.mode = .uninit → s.TransportOk 3 → s.DelaysReturn 3 →
    exec .init s = .next { s with
      mode := .extgfx, cs := false, rsp := s.rsp ++ [⟨.ok, 0#24⟩], tx := s.tx.after 3, dly := s.dly.after 3,
      out := s.out ++ [.cs true, .tx ⟨0xF8#8, 0x30#8, 0x00#8⟩ .ok, .dly Config.block.tInitSettle,
        .tx ⟨0xF8#8, 0x30#8, 0x40#8⟩ .ok, .dly Config.block.tInitSettle,
        .tx ⟨0xF8#8, 0x30#8, 0x60#8⟩ .ok, .dly Config.block.tInitSettle, .cs false] }

/-- INIT whose command number `k` fails: no later packet, no delay after the failed one, MODE = UNINIT, chip select
released, TRANSPORT_ERROR; FB and all else unchanged (43_sequencer.md R101, 60_exceptions.md R114; decisions D17,
D21). -/
def Obligations.InitFails : Prop :=
  ∀ (s : State) (k : Fin 3), s.mode = .uninit → s.TransportOk k.val → s.DelaysReturn k.val →
    s.txAnswer k.val = .answered .fail →
    exec .init s = .next { s with
      mode := .uninit, cs := false, rsp := s.rsp ++ [⟨.transportError, 0#24⟩], tx := s.tx.after (k.val + 1),
      dly := s.dly.after k.val,
      out := s.out ++ (initTrace Config.block).take (2 * k.val + 1) ++
        [.tx (initPacket Config.block (initCommands.get k)) .fail, .cs false] }

/-- INIT in any MODE but UNINIT answers ALREADY_INITIALIZED, FLUSH in any MODE but EXTGFX answers NOT_INITIALIZED;
neither produces an event or changes anything else (43_sequencer.md R109, 60_exceptions.md R117, R118; the spec's own
decision D14). -/
def Obligations.ModePreconditions : Prop :=
  (∀ s : State, s.mode ≠ .uninit →
    exec .init s = .next { s with rsp := s.rsp ++ [⟨.alreadyInitialized, 0#24⟩] }) ∧
  ∀ s : State, s.mode ≠ .extgfx →
    exec .flush s = .next { s with rsp := s.rsp ++ [⟨.notInitialized, 0#24⟩] }

/-- FLUSH in EXTGFX with every `TxWrite` answered `ok` and every `Delay` returning: OK, the whole trace of 64 rows in
increasing order, and nothing else changes (43_sequencer.md R102, R103, R110, R111; row order is decision D20). -/
def Obligations.FlushSucceeds : Prop :=
  ∀ s : State, s.mode = .extgfx → s.TransportOk 1152 → s.DelaysReturn (flushDelays Config.block) →
    exec .flush s = .next { s with
      cs := false, rsp := s.rsp ++ [⟨.ok, 0#24⟩], tx := s.tx.after 1152,
      dly := s.dly.after (flushDelays Config.block), out := s.out ++ flushTrace Config.block s.fb }

/-- FLUSH whose packet number `k` fails, counted from 0: the trace up to that packet, the failed packet, `Cs(0)`,
TRANSPORT_ERROR; no later packet, no delay after it; FB, MODE and all else unchanged (43_sequencer.md R104,
60_exceptions.md R114, R121; decision D21). -/
def Obligations.FlushFails : Prop :=
  ∀ (s : State) (k : Nat) (pkt : Packet), s.mode = .extgfx →
    (flushPackets Config.block s.fb)[k]? = some pkt → s.TransportOk k →
    s.DelaysReturn (dlyCount (cutBefore k (flushTrace Config.block s.fb))) → s.txAnswer k = .answered .fail →
    exec .flush s = .next { s with
      cs := false, rsp := s.rsp ++ [⟨.transportError, 0#24⟩], tx := s.tx.after (k + 1),
      dly := s.dly.after (dlyCount (cutBefore k (flushTrace Config.block s.fb))),
      out := s.out ++ cutBefore k (flushTrace Config.block s.fb) ++ [.tx pkt .fail, .cs false] }

/-- The sizes and the order of a FLUSH's trace, for all parameters: its `Tx` events are the 1152 packets, all `ok`;
packets `18r`, `18r + 1` (from 0) are the address-set of row `r` and packet `18r + 2 + k` carries `FB[16r + k]`;
3456 wire bytes; the delays; one `Cs(1)` first and one `Cs(0)` last (43_sequencer.md R107, derived there). -/
def Obligations.FlushSizesAndOrder : Prop :=
  ∀ (p : Params) (fb : Memory),
    txEvents (flushTrace p fb) = (flushPackets p fb).map (fun k => (k, .ok)) ∧
    (flushPackets p fb).length = 1152 ∧
    (∀ r : Row,
      (flushPackets p fb)[18 * r.val]? = some (encodePacket p (verticalByte p (xlate r 0).1) false false) ∧
      (flushPackets p fb)[18 * r.val + 1]? = some (encodePacket p (horizontalByte p (xlate r 0).2) false false) ∧
      ∀ k : Fin 16, (flushPackets p fb)[18 * r.val + 2 + k.val]? =
        some (encodePacket p (memRead1 fb (rowByte r k)) true false)) ∧
    (wireBytes (flushTrace p fb)).length = 3456 ∧ dlyCount (flushTrace p fb) = flushDelays p ∧
    (flushTrace p fb).count (.cs true) = 1 ∧ (flushTrace p fb).count (.cs false) = 1 ∧
    (flushTrace p fb).head? = some (.cs true) ∧ (flushTrace p fb).getLast? = some (.cs false)

/-- The row transfer in wire bytes with the default literals: packet 1 `F8` and the nibbles of `0x80 | v`, packet 2
`F8 80 00` in the upper half and `F8 80 80` in the lower, then `FA` and the nibbles of each row byte
(43_sequencer.md R103, derived there; literals general knowledge, log 7). -/
def Obligations.RowTransferBytes : Prop :=
  ∀ (fb : Memory) (r : Row),
    rowPackets Config.block fb r =
      [⟨0xF8#8, (0x80#8 ||| BitVec.ofNat 8 (r.val % 32)) &&& 0xF0#8, (0x80#8 ||| BitVec.ofNat 8 (r.val % 32)) <<< 4⟩,
        ⟨0xF8#8, 0x80#8, if r.val < 32 then 0x00#8 else 0x80#8⟩] ++
      (List.finRange 16).map fun k =>
        ⟨0xFA#8, memRead1 fb (rowByte r k) &&& 0xF0#8, memRead1 fb (rowByte r k) <<< 4⟩

/-- FB is never changed by FLUSH or INIT, whether they succeed, fail, are refused or never end: "any failure mid-flush
must leave the framebuffer's in-memory state untouched" (40_framebuffer.md R83). -/
def Obligations.SequencerKeepsFb : Prop :=
  ∀ s : State, ∃ t u, exec .init s = .next t ∧ exec .flush s = .next u ∧ t.fb = s.fb ∧ u.fb = s.fb

/-- A FLUSH depends only on FB and on what the platform answers: two blocks in EXTGFX with the same FB and the same
answers produce the same events, the same response and the same ending, whatever they flushed before
(43_sequencer.md R105). -/
def Obligations.FlushDependsOnlyOnFb : Prop :=
  ∀ s s' : State, s.mode = .extgfx → s'.mode = .extgfx → s.busy = none → s'.busy = none → s.fb = s'.fb →
    s.tx = s'.tx → s.dly = s'.dly →
    ∃ t t' events responses, exec .flush s = .next t ∧ exec .flush s' = .next t' ∧
      t.out = s.out ++ events ∧ t'.out = s'.out ++ events ∧ t.rsp = s.rsp ++ responses ∧
      t'.rsp = s'.rsp ++ responses ∧ t.busy = t'.busy ∧ t.cs = t'.cs ∧ t.tx = t'.tx ∧ t.dly = t'.dly

/-- A `TxWrite` of INIT, or a `Delay` of INIT, that never returns: no response, the operation stays in progress at
that call, chip select stays asserted, MODE is as far as it got, and the block has no further step unless it is reset
(60_exceptions.md R119, 70_reset_and_hazards.md R140, U5; what the trace holds of such a call is the model's choice,
log 4). -/
def Obligations.StalledInitStaysInProgress : Prop :=
  ∀ (s : State) (k : Fin 3), s.mode = .uninit → s.DelaysReturn k.val →
    (s.TransportOk k.val → s.txAnswer k.val = .never →
      exec .init s = .next { s with
        mode := if k = 0 then .uninit else .basic, cs := true, busy := some (.initSend (initCommands.get k)),
        tx := s.tx.after (k.val + 1), dly := s.dly.after k.val,
        out := s.out ++ (initTrace Config.block).take (2 * k.val + 1) }) ∧
    (s.TransportOk (k.val + 1) → s.delayAnswer k.val = .never →
      exec .init s = .next { s with
        mode := if k = 0 then .uninit else .basic, cs := true, busy := some (.initSettle (initCommands.get k)),
        tx := s.tx.after (k.val + 1), dly := s.dly.after (k.val + 1),
        out := s.out ++ (initTrace Config.block).take (2 * k.val + 3) })

/-- A FLUSH whose port call `q` never returns, a `TxWrite` or a `Delay`: no response, the operation stays in progress at
exactly that call (its row, group and phase), chip select stays asserted, FB and MODE are unchanged, and the block has
no further step unless it is reset. A `TxWrite` at `q` is the one for packet number `q.sendsBefore`: `18*r` and
`18*r + 1` for the address-set of row `r`, `18*r + 2 + 2*g` and `18*r + 3 + 2*g` for the bytes of word `(r, g)`
(60_exceptions.md R119, 70_reset_and_hazards.md R140, 10_state.md R14, R21, U5; what the trace holds of such a call is
the model's choice, log 4). -/
def Obligations.StalledFlushStaysInProgress : Prop :=
  ∀ (s : State) (q : SeqPoint), s.mode = .extgfx → q.mode = .extgfx → s.TransportOk q.sendsBefore →
    s.DelaysReturn (q.delaysBefore Config.block) →
    (∀ k, q.packet Config.block s.fb = some k → s.txAnswer q.sendsBefore = .never →
      (flushPackets Config.block s.fb)[q.sendsBefore]? = some k ∧
      ∃ t, exec .flush s = .next t ∧
        t = { s with
          cs := true, busy := some q, tx := s.tx.after (q.sendsBefore + 1),
          dly := s.dly.after (q.delaysBefore Config.block),
          out := s.out ++ cutBefore q.sendsBefore (flushTrace Config.block s.fb) } ∧
        ((∀ rest, t.host ≠ .reset :: rest) → step t = .fault (.portNeverReturned q))) ∧
    ∀ n, q.delay Config.block = some n → s.delayAnswer (q.delaysBefore Config.block) = .never →
      ∃ t, exec .flush s = .next t ∧
        t = { s with
          cs := true, busy := some q, tx := s.tx.after q.sendsBefore,
          dly := s.dly.after (q.delaysBefore Config.block + 1),
          out := s.out ++ cutThroughDelay (q.delaysBefore Config.block) (flushTrace Config.block s.fb) } ∧
        t.out.getLast? = some (.dly n) ∧
        ((∀ rest, t.host ≠ .reset :: rest) → step t = .fault (.portNeverReturned q))

/-- A FLUSH ends in exactly one of three ways: OK after all 64 rows; TRANSPORT_ERROR at the first packet that fails;
or never, in the first port call that does not return. The platform's answers alone decide which: no two of the four
conditions on them can hold together (43_sequencer.md R102, R104, 60_exceptions.md R119, R125). -/
def Obligations.FlushEndsInOneOfThreeWays : Prop :=
  ∀ s : State, s.mode = .extgfx → s.busy = none → ∃ t, exec .flush s = .next t ∧ t.fb = s.fb ∧ t.mode = .extgfx ∧
    ((t.busy = none ∧ t.cs = false ∧ t.rsp = s.rsp ++ [⟨.ok, 0#24⟩] ∧ s.TransportOk 1152 ∧
        s.DelaysReturn (flushDelays Config.block)) ∨
      (t.busy = none ∧ t.cs = false ∧ t.rsp = s.rsp ++ [⟨.transportError, 0#24⟩] ∧
        ∃ k < 1152, s.TransportOk k ∧ s.DelaysReturn (dlyCount (cutBefore k (flushTrace Config.block s.fb))) ∧
          s.txAnswer k = .answered .fail) ∨
      (t.cs = true ∧ t.rsp = s.rsp ∧ ∃ q : SeqPoint, t.busy = some q ∧ q.mode = .extgfx ∧
        s.TransportOk q.sendsBefore ∧ s.DelaysReturn (q.delaysBefore Config.block) ∧
        ((q.packet Config.block s.fb ≠ none ∧ q.sendsBefore < 1152 ∧
            q.delaysBefore Config.block = dlyCount (cutBefore q.sendsBefore (flushTrace Config.block s.fb)) ∧
            s.txAnswer q.sendsBefore = .never) ∨
          (q.delay Config.block ≠ none ∧ q.delaysBefore Config.block < flushDelays Config.block ∧
            s.delayAnswer (q.delaysBefore Config.block) = .never))))

/-- CONSTRUCT, with a platform that answers well: FB all zero, MODE = EXTGFX, OUT the eight events of INIT, its
response OK, and nothing known of the panel yet; with a packet that fails: FB all zero, MODE = UNINIT, TRANSPORT_ERROR
(43_sequencer.md R108, 30_encoding.md R67, 70_reset_and_hazards.md R131, R133; decision D16). -/
def Obligations.ConstructResult : Prop :=
  (∀ s : State, s.TransportOk 3 → s.DelaysReturn 3 → ∃ t, runMoves construct s = .next t ∧
    (∀ i : ByteIndex, memRead1 t.fb i = 0x00#8) ∧ t.mode = .extgfx ∧ t.busy = none ∧ t.cs = false ∧
    t.out = initTrace Config.block ∧ t.rsp = [⟨.ok, 0#24⟩] ∧
    ∀ (c : Column) (r : Row), (observe Config.block t.out).panel c r = none) ∧
  ∀ (s : State) (k : Fin 3), s.TransportOk k.val → s.DelaysReturn k.val → s.txAnswer k.val = .answered .fail →
    ∃ t, runMoves construct s = .next t ∧ (∀ i : ByteIndex, memRead1 t.fb i = 0x00#8) ∧ t.mode = .uninit ∧
      t.busy = none ∧ t.cs = false ∧ t.rsp = [⟨.transportError, 0#24⟩]

/-! ### The whole machine -/

/-- The invariant holds at reset. -/
def Obligations.ResetSatisfiesInvariant : Prop := Inv State.reset

/-- Every step keeps the invariant: FB in canonical form, MODE BASIC only inside INIT, the module selected exactly
while an operation is in progress, every packet ever sent a write packet of the codec, error responses with DATA 0,
and in EXTGFX a controller that has received the three initialization commands (10_state.md R16, R18, R27,
30_encoding.md R57, 43_sequencer.md R111, 60_exceptions.md R113, 20_memory.md R49). -/
def Obligations.StepKeepsInvariant : Prop := ∀ s t : State, Inv s → step s = .next t → Inv t

/-- The legal transitions of MODE: a step that changes it is a reset, or an INIT that ran in UNINIT and succeeded or
is stuck in BASIC; nothing else leads to or from any mode (10_state.md R18). -/
def Obligations.ModeTransitions : Prop :=
  ∀ s t : State, step s = .next t → t.mode ≠ s.mode →
    (∃ rest, s.host = .reset :: rest ∧ t.mode = .uninit) ∨
    (∃ w rest, s.host = .command w :: rest ∧ decode w = .ok .init ∧ s.mode = .uninit ∧
      ((t.mode = .extgfx ∧ t.busy = none ∧ t.rsp = s.rsp ++ [⟨.ok, 0#24⟩]) ∨
        (t.mode = .basic ∧ t.busy.isSome = true ∧ t.rsp = s.rsp)))

/-- Only INIT and FLUSH drive a port: every other operation completes, appends nothing to OUT and leaves MODE, chip
select, the operation in progress and the platform's answers alone (10_state.md R27, 43_sequencer.md R99). -/
def Obligations.OnlySequencerDoesIo : Prop :=
  ∀ (i : Instr) (s : State), isSequencer i = false → ∃ t r, exec i s = .next t ∧
    t = { s with fb := t.fb, rsp := s.rsp ++ [r] }

/-- Only SET_PIXEL, CLEAR_PIXEL and CLEAR_ALL write FB; and ENCODE, XLATE and INIT do not read it either
(10_state.md R16, R27). -/
def Obligations.OnlyWritersTouchFb : Prop :=
  (∀ (i : Instr) (s : State), writesFb i = false → ∃ t, exec i s = .next t ∧ t.fb = s.fb) ∧
  ∀ (i : Instr) (s : State) (fb : Memory), i = .init ∨ (∃ v rs rw, i = .encode v rs rw) ∨ (∃ r g, i = .xlate r g) →
    ∃ t, exec i s = .next t ∧ exec i { s with fb := fb } = .next { t with fb := fb }

/-- OUT starts empty at reset and only grows, and the block never reads it: what an operation does is the same
whatever the trace holds (10_state.md R23). -/
def Obligations.TraceOnlyGrowsAndIsNeverRead : Prop :=
  State.reset.out = [] ∧
  (∀ s t : State, step s = .next t → s.out <+: t.out ∨ ∃ rest, s.host = .reset :: rest ∧ t.out = []) ∧
  ∀ (i : Instr) (s : State) (out : List Event), ∃ t events, exec i s = .next t ∧ t.out = s.out ++ events ∧
    exec i { s with out := out } = .next { t with out := out ++ events }

/-- No operation reads a response: an operation after one that answered an error is executed exactly as its own rule
says, and nothing is latched (10_state.md R15, 60_exceptions.md R122). -/
def Obligations.ResponsesAreNeverRead : Prop :=
  ∀ (i : Instr) (s : State) (rsp : List Response), ∃ t new, exec i s = .next t ∧ t.rsp = s.rsp ++ new ∧
    exec i { s with rsp := rsp } = .next { t with rsp := rsp ++ new }

/-- Every operation presented to an idle block produces exactly one response and leaves the block idle, or, INIT and
FLUSH alone, stays in progress with none; with a non-OK status DATA is 0 (30_encoding.md R52, 10_state.md R25,
60_exceptions.md R113). -/
def Obligations.OneResponsePerOperation : Prop :=
  ∀ (i : Instr) (s : State), s.busy = none → ∃ t, exec i s = .next t ∧
    ((t.busy = none ∧ ∃ r : Response, t.rsp = s.rsp ++ [r] ∧ (r.status ≠ .ok → r.data = 0#24)) ∨
      (t.busy.isSome = true ∧ t.rsp = s.rsp ∧ isSequencer i = true))

/-- Errors are precise: with a non-OK status FB is exactly as before, MODE as before (a failed INIT leaves UNINIT),
OUT has gained nothing or exactly the events up to the first failed `TxWrite` and the closing `Cs(0)`, and the next
operation can run at once (60_exceptions.md R121). -/
def Obligations.ErrorsArePrecise : Prop :=
  ∀ (i : Instr) (s t : State) (e : Status) (d : Data), s.busy = none → exec i s = .next t →
    t.rsp = s.rsp ++ [⟨e, d⟩] → e ≠ .ok →
    d = 0#24 ∧ t.fb = s.fb ∧ t.mode = s.mode ∧ t.busy = none ∧ t.host = s.host ∧
    (i = .init → e = .transportError → t.mode = .uninit) ∧
    ((e ≠ .transportError ∧ t.out = s.out ∧ t.cs = s.cs) ∨
      (e = .transportError ∧ isSequencer i = true ∧ t.cs = false ∧ ∃ events k,
        t.out = s.out ++ events ++ [.tx k .fail, .cs false] ∧ ∀ k', .tx k' .fail ∉ events))

/-! ### The far end (20_memory.md R46 to R49, informative; 43_sequencer.md R112) -/

/-- End to end: in a good state in EXTGFX, a FLUSH that the platform answers well answers OK, and then the observer's
graphics RAM holds every word of FB at its translated address and the panel shows FB, pixel for pixel
(43_sequencer.md R112, derived there, resting on the informative observer model, decision D19, log 14). -/
def Obligations.PanelShowsFramebuffer : Prop :=
  ∀ s : State, Inv s → s.busy = none → s.mode = .extgfx → s.TransportOk 1152 →
    s.DelaysReturn (flushDelays Config.block) →
    ∃ t, exec .flush s = .next t ∧ t.fb = s.fb ∧ t.rsp = s.rsp ++ [⟨.ok, 0#24⟩] ∧
      (∀ (r : Row) (g : Group), (observe Config.block t.out).gd (xlate r g).1 (xlate r g).2 =
        some (memRead1 s.fb (leftIndex r g) ++ memRead1 s.fb (rightIndex r g))) ∧
      ∀ (c : Column) (r : Row), (observe Config.block t.out).panel c r = some (pixel s.fb c r)

/-- A failed FLUSH leaves the display mixed: when packet `j` of row `r` is the first to fail, and a FLUSH had answered OK
before since the reset, the rows before `r` show the new image and the rows after `r` are as they were
(43_sequencer.md R104, 70_reset_and_hazards.md R139, U8). When none had, nothing is known of the panel still
(20_memory.md R46, 70_reset_and_hazards.md R131, U7). The observer model is informative, decision D19, log 14. -/
def Obligations.FailedFlushLeavesMixedPanel : Prop :=
  ∀ (s : State) (r : Row) (j : Fin 18), Inv s → s.busy = none → s.mode = .extgfx →
    s.TransportOk (18 * r.val + j.val) → s.DelaysReturn (flushDelays Config.block) →
    s.txAnswer (18 * r.val + j.val) = .answered .fail →
    ∃ t, exec .flush s = .next t ∧ t.fb = s.fb ∧ t.rsp = s.rsp ++ [⟨.transportError, 0#24⟩] ∧
      ((observe Config.block s.out).flushed = true →
        (∀ (c : Column) (y : Row), y < r → (observe Config.block t.out).panel c y = some (pixel s.fb c y)) ∧
        ∀ (c : Column) (y : Row), r < y →
          (observe Config.block t.out).panel c y = (observe Config.block s.out).panel c y) ∧
      ((observe Config.block s.out).flushed = false →
        ∀ (c : Column) (y : Row), (observe Config.block t.out).panel c y = none)

/-- A FLUSH stuck in a `TxWrite` of row `r` leaves the display no better known than one that failed there: the rows
before `r` show the new image, the rows after `r` are as they were, if a FLUSH had answered OK before since the reset,
and nothing is known otherwise (60_exceptions.md R119, 20_memory.md R49; that such a packet counts as one cut short is
the model's choice, log 21; observer model, log 14). -/
def Obligations.StalledFlushLeavesMixedPanel : Prop :=
  ∀ (s : State) (q : SeqPoint) (r : Row), Inv s → s.busy = none → s.mode = .extgfx → q.mode = .extgfx →
    q.packet Config.block s.fb ≠ none → q.sendsBefore / 18 = r.val → s.TransportOk q.sendsBefore →
    s.DelaysReturn (q.delaysBefore Config.block) → s.txAnswer q.sendsBefore = .never →
    ∃ t, exec .flush s = .next t ∧ t.busy = some q ∧
      ((observe Config.block s.out).flushed = true →
        (∀ (c : Column) (y : Row), y < r → (t.farEnd Config.block).panel c y = some (pixel s.fb c y)) ∧
        ∀ (c : Column) (y : Row), r < y →
          (t.farEnd Config.block).panel c y = (observe Config.block s.out).panel c y) ∧
      ((observe Config.block s.out).flushed = false →
        ∀ (c : Column) (y : Row), (t.farEnd Config.block).panel c y = none)

/-- A retried FLUSH converges: after a FLUSH that failed at any packet, FB still holds the image, and a second FLUSH
that the platform answers well starts again at row 0, answers OK and the panel shows FB (43_sequencer.md R104,
40_framebuffer.md R83; the observer model is informative, log 14). -/
def Obligations.RetriedFlushConverges : Prop :=
  ∀ (s t : State), Inv s → s.busy = none → s.mode = .extgfx → exec .flush s = .next t →
    t.rsp = s.rsp ++ [⟨.transportError, 0#24⟩] → t.TransportOk 1152 → t.DelaysReturn (flushDelays Config.block) →
    ∃ u, exec .flush t = .next u ∧ u.fb = s.fb ∧ u.rsp = t.rsp ++ [⟨.ok, 0#24⟩] ∧
      u.out = t.out ++ flushTrace Config.block s.fb ∧
      ∀ (c : Column) (r : Row), (observe Config.block u.out).panel c r = some (pixel s.fb c r)

/-- Boot and first image: reset, INIT and FLUSH with a platform that answers well, nothing drawn: the panel, unknown
before, is blank (70_reset_and_hazards.md R132, R133, derived there; observer model, log 14). -/
def Obligations.FirstFlushBlanksPanel : Prop :=
  ∀ s : State, s.TransportOk 1155 → s.DelaysReturn (3 + flushDelays Config.block) →
    ∃ t, runMoves (construct ++ present [.flush]) s = .next t ∧ t.rsp = [⟨.ok, 0#24⟩, ⟨.ok, 0#24⟩] ∧
      ∀ (c : Column) (r : Row), (observe Config.block t.out).panel c r = some false
end

