-- ==== Sys2Proof/Laws/State.lean ====
section
/-! SUPPORT. What each update of the state leaves in each field: one lemma per field per update, true by rfl. -/

namespace Sys2Proof.Machine.State

variable (s : State)

/-! ### setFb -/

@[simp] theorem setFb_fb (fb : Memory) : (s.setFb fb).fb = fb := rfl
@[simp] theorem setFb_mode (fb : Memory) : (s.setFb fb).mode = s.mode := rfl
@[simp] theorem setFb_busy (fb : Memory) : (s.setFb fb).busy = s.busy := rfl
@[simp] theorem setFb_cs (fb : Memory) : (s.setFb fb).cs = s.cs := rfl
@[simp] theorem setFb_out (fb : Memory) : (s.setFb fb).out = s.out := rfl
@[simp] theorem setFb_rsp (fb : Memory) : (s.setFb fb).rsp = s.rsp := rfl
@[simp] theorem setFb_host (fb : Memory) : (s.setFb fb).host = s.host := rfl
@[simp] theorem setFb_tx (fb : Memory) : (s.setFb fb).tx = s.tx := rfl
@[simp] theorem setFb_dly (fb : Memory) : (s.setFb fb).dly = s.dly := rfl

/-! ### setMode -/

@[simp] theorem setMode_fb (m : Mode) : (s.setMode m).fb = s.fb := rfl
@[simp] theorem setMode_mode (m : Mode) : (s.setMode m).mode = m := rfl
@[simp] theorem setMode_busy (m : Mode) : (s.setMode m).busy = s.busy := rfl
@[simp] theorem setMode_cs (m : Mode) : (s.setMode m).cs = s.cs := rfl
@[simp] theorem setMode_out (m : Mode) : (s.setMode m).out = s.out := rfl
@[simp] theorem setMode_rsp (m : Mode) : (s.setMode m).rsp = s.rsp := rfl
@[simp] theorem setMode_host (m : Mode) : (s.setMode m).host = s.host := rfl
@[simp] theorem setMode_tx (m : Mode) : (s.setMode m).tx = s.tx := rfl
@[simp] theorem setMode_dly (m : Mode) : (s.setMode m).dly = s.dly := rfl

/-! ### setBusy -/

@[simp] theorem setBusy_fb (p : SeqPoint) : (s.setBusy p).fb = s.fb := rfl
@[simp] theorem setBusy_mode (p : SeqPoint) : (s.setBusy p).mode = s.mode := rfl
@[simp] theorem setBusy_busy (p : SeqPoint) : (s.setBusy p).busy = some p := rfl
@[simp] theorem setBusy_cs (p : SeqPoint) : (s.setBusy p).cs = s.cs := rfl
@[simp] theorem setBusy_out (p : SeqPoint) : (s.setBusy p).out = s.out := rfl
@[simp] theorem setBusy_rsp (p : SeqPoint) : (s.setBusy p).rsp = s.rsp := rfl
@[simp] theorem setBusy_host (p : SeqPoint) : (s.setBusy p).host = s.host := rfl
@[simp] theorem setBusy_tx (p : SeqPoint) : (s.setBusy p).tx = s.tx := rfl
@[simp] theorem setBusy_dly (p : SeqPoint) : (s.setBusy p).dly = s.dly := rfl

/-! ### emit -/

@[simp] theorem emit_fb (e : Event) : (s.emit e).fb = s.fb := rfl
@[simp] theorem emit_mode (e : Event) : (s.emit e).mode = s.mode := rfl
@[simp] theorem emit_busy (e : Event) : (s.emit e).busy = s.busy := rfl
@[simp] theorem emit_cs (e : Event) : (s.emit e).cs = s.cs := rfl
@[simp] theorem emit_out (e : Event) : (s.emit e).out = s.out ++ [e] := rfl
@[simp] theorem emit_rsp (e : Event) : (s.emit e).rsp = s.rsp := rfl
@[simp] theorem emit_host (e : Event) : (s.emit e).host = s.host := rfl
@[simp] theorem emit_tx (e : Event) : (s.emit e).tx = s.tx := rfl
@[simp] theorem emit_dly (e : Event) : (s.emit e).dly = s.dly := rfl

/-! ### csSet -/

@[simp] theorem csSet_fb (b : Bool) : (s.csSet b).fb = s.fb := rfl
@[simp] theorem csSet_mode (b : Bool) : (s.csSet b).mode = s.mode := rfl
@[simp] theorem csSet_busy (b : Bool) : (s.csSet b).busy = s.busy := rfl
@[simp] theorem csSet_cs (b : Bool) : (s.csSet b).cs = b := rfl
@[simp] theorem csSet_out (b : Bool) : (s.csSet b).out = s.out ++ [.cs b] := rfl
@[simp] theorem csSet_rsp (b : Bool) : (s.csSet b).rsp = s.rsp := rfl
@[simp] theorem csSet_host (b : Bool) : (s.csSet b).host = s.host := rfl
@[simp] theorem csSet_tx (b : Bool) : (s.csSet b).tx = s.tx := rfl
@[simp] theorem csSet_dly (b : Bool) : (s.csSet b).dly = s.dly := rfl

/-! ### respond -/

@[simp] theorem respond_fb (r : Response) : (s.respond r).fb = s.fb := rfl
@[simp] theorem respond_mode (r : Response) : (s.respond r).mode = s.mode := rfl
@[simp] theorem respond_busy (r : Response) : (s.respond r).busy = s.busy := rfl
@[simp] theorem respond_cs (r : Response) : (s.respond r).cs = s.cs := rfl
@[simp] theorem respond_out (r : Response) : (s.respond r).out = s.out := rfl
@[simp] theorem respond_rsp (r : Response) : (s.respond r).rsp = s.rsp ++ [r] := rfl
@[simp] theorem respond_host (r : Response) : (s.respond r).host = s.host := rfl
@[simp] theorem respond_tx (r : Response) : (s.respond r).tx = s.tx := rfl
@[simp] theorem respond_dly (r : Response) : (s.respond r).dly = s.dly := rfl

/-! ### answer -/

@[simp] theorem answer_fb (d : Data) : (s.answer d).fb = s.fb := rfl
@[simp] theorem answer_mode (d : Data) : (s.answer d).mode = s.mode := rfl
@[simp] theorem answer_busy (d : Data) : (s.answer d).busy = s.busy := rfl
@[simp] theorem answer_cs (d : Data) : (s.answer d).cs = s.cs := rfl
@[simp] theorem answer_out (d : Data) : (s.answer d).out = s.out := rfl
@[simp] theorem answer_rsp (d : Data) : (s.answer d).rsp = s.rsp ++ [⟨.ok, d⟩] := rfl
@[simp] theorem answer_host (d : Data) : (s.answer d).host = s.host := rfl
@[simp] theorem answer_tx (d : Data) : (s.answer d).tx = s.tx := rfl
@[simp] theorem answer_dly (d : Data) : (s.answer d).dly = s.dly := rfl

/-! ### raise -/

@[simp] theorem raise_fb (e : Status) : (s.raise e).fb = s.fb := rfl
@[simp] theorem raise_mode (e : Status) : (s.raise e).mode = s.mode := rfl
@[simp] theorem raise_busy (e : Status) : (s.raise e).busy = s.busy := rfl
@[simp] theorem raise_cs (e : Status) : (s.raise e).cs = s.cs := rfl
@[simp] theorem raise_out (e : Status) : (s.raise e).out = s.out := rfl
@[simp] theorem raise_rsp (e : Status) : (s.raise e).rsp = s.rsp ++ [⟨e, 0#24⟩] := rfl
@[simp] theorem raise_host (e : Status) : (s.raise e).host = s.host := rfl
@[simp] theorem raise_tx (e : Status) : (s.raise e).tx = s.tx := rfl
@[simp] theorem raise_dly (e : Status) : (s.raise e).dly = s.dly := rfl

/-! ### resetBlock -/

@[simp] theorem resetBlock_fb : (s.resetBlock).fb = [] := rfl
@[simp] theorem resetBlock_mode : (s.resetBlock).mode = .uninit := rfl
@[simp] theorem resetBlock_busy : (s.resetBlock).busy = none := rfl
@[simp] theorem resetBlock_cs : (s.resetBlock).cs = false := rfl
@[simp] theorem resetBlock_out : (s.resetBlock).out = [] := rfl
@[simp] theorem resetBlock_rsp : (s.resetBlock).rsp = [] := rfl
@[simp] theorem resetBlock_host : (s.resetBlock).host = s.host := rfl
@[simp] theorem resetBlock_tx : (s.resetBlock).tx = s.tx := rfl
@[simp] theorem resetBlock_dly : (s.resetBlock).dly = s.dly := rfl

/-! ### reset -/

@[simp] theorem reset_fb : State.reset.fb = [] := rfl
@[simp] theorem reset_mode : State.reset.mode = .uninit := rfl
@[simp] theorem reset_busy : State.reset.busy = none := rfl
@[simp] theorem reset_cs : State.reset.cs = false := rfl
@[simp] theorem reset_out : State.reset.out = [] := rfl
@[simp] theorem reset_rsp : State.reset.rsp = [] := rfl
@[simp] theorem reset_host : State.reset.host = [] := rfl

end Sys2Proof.Machine.State
end

