-- ==== Sys2Proof/Laws/Feed.lean ====
section
/-! SUPPORT. The laws of the platform's answer feeds. -/

namespace Sys2Proof.Machine

namespace Feed

variable {α : Type} (free : Nat → α) (f : Feed α)

/-- The next answer is the answer to call 0, and one answer is used up. -/
theorem next_eq : f.next free = (f.answerAt free 0, f.after 1) := by
  obtain ⟨l, n⟩ := f
  cases l <;> simp [Feed.next, Feed.answerAt, Feed.after]

@[simp] theorem after_zero : f.after 0 = f := by simp [Feed.after]

@[simp] theorem after_after (j k : Nat) : (f.after j).after k = f.after (j + k) := by
  simp only [Feed.after, List.drop_drop, List.length_drop, Feed.mk.injEq, true_and]
  omega

/-- After `j` answers, the answer to call `k` is what was the answer to call `j + k`. -/
theorem answerAt_after (j k : Nat) : (f.after j).answerAt free k = f.answerAt free (j + k) := by
  obtain ⟨l, n⟩ := f
  simp only [Feed.answerAt, Feed.after, List.getElem?_drop, List.length_drop]
  split
  · rfl
  · next h =>
    have : l.length ≤ j + k := by simpa using h
    congr 1
    omega

end Feed

/-- A feed's script answers first. -/
theorem State.txAnswer_of_script (s : State) (k : Nat) (a : TxAnswer) (h : s.tx.script[k]? = some a) :
    s.txAnswer k = a := by
  simp [State.txAnswer, Feed.answerAt, h]

/-- A feed's script answers first. -/
theorem State.delayAnswer_of_script (s : State) (k : Nat) (a : DelayAnswer) (h : s.dly.script[k]? = some a) :
    s.delayAnswer k = a := by
  simp [State.delayAnswer, Feed.answerAt, h]

end Sys2Proof.Machine
end

