-- ==== Sys2Proof/Laws/Acts.lean ====
section
/-! SUPPORT. What a run of port actions can do, said once (`runActs_cases`): every port call answers well and it ends
at its end; or it stops at the first call that does not. -/

namespace Sys2Proof.Machine

/-! ### One port call -/

theorem txWrite_of_ok {s : State} (p : Packet) (h : s.txAnswer 0 = .answered .ok) :
    txWrite p s = (.answered .ok, { s with tx := s.tx.after 1, out := s.out ++ [.tx p .ok] }) := by
  unfold State.txAnswer at h
  simp [txWrite, Feed.next_eq, h, State.emit]

theorem txWrite_of_fail {s : State} (p : Packet) (h : s.txAnswer 0 = .answered .fail) :
    txWrite p s = (.answered .fail, { s with tx := s.tx.after 1, out := s.out ++ [.tx p .fail] }) := by
  unfold State.txAnswer at h
  simp [txWrite, Feed.next_eq, h, State.emit]

theorem txWrite_of_never {s : State} (p : Packet) (h : s.txAnswer 0 = .never) :
    txWrite p s = (.never, { s with tx := s.tx.after 1 }) := by
  unfold State.txAnswer at h
  simp [txWrite, Feed.next_eq, h]

theorem delay_eq (n : Nat) (s : State) :
    delay n s = (s.delayAnswer 0, { s with dly := s.dly.after 1, out := s.out ++ [.dly n] }) := by
  simp [delay, Feed.next_eq, State.emit, State.delayAnswer]

/-! ### What a sequence of actions does when every call answers well -/

/-- How many `TxWrite` calls the actions make. -/
def sends : List Act → Nat
  | [] => 0
  | .select _ :: k => sends k
  | .toMode _ :: k => sends k
  | .send _ _ :: k => sends k + 1
  | .settle _ _ :: k => sends k

/-- How many `Delay` calls the actions make. -/
def delays : List Act → Nat
  | [] => 0
  | .select _ :: k => delays k
  | .toMode _ :: k => delays k
  | .send _ _ :: k => delays k
  | .settle _ _ :: k => delays k + 1

/-- The event an action appends when its call answers well. -/
def Act.events : Act → List Event
  | .select b => [.cs b]
  | .toMode _ => []
  | .send _ p => [.tx p .ok]
  | .settle _ n => [.dly n]

/-- The trace of the actions when every call answers well. -/
def actTrace (l : List Act) : List Event := l.flatMap Act.events

/-- The chip-select level after the actions. -/
def actCs : List Act → Bool → Bool
  | [], c => c
  | .select b :: k, _ => actCs k b
  | .toMode _ :: k, c => actCs k c
  | .send _ _ :: k, c => actCs k c
  | .settle _ _ :: k, c => actCs k c

/-- The mode after the actions. -/
def actMode : List Act → Mode → Mode
  | [], m => m
  | .select _ :: k, m => actMode k m
  | .toMode m :: k, _ => actMode k m
  | .send _ _ :: k, m => actMode k m
  | .settle _ _ :: k, m => actMode k m

/-- The state after the actions when every call answers well. -/
def State.afterActs (s : State) (l : List Act) : State :=
  { s with
    mode := actMode l s.mode
    cs := actCs l s.cs
    out := s.out ++ actTrace l
    tx := s.tx.after (sends l)
    dly := s.dly.after (delays l) }

section
variable (l m : List Act)

@[simp] theorem sends_append : sends (l ++ m) = sends l + sends m := by
  induction l with
  | nil => simp [sends]
  | cons a l ih => cases a <;> (simp [sends, ih]; try omega)

@[simp] theorem delays_append : delays (l ++ m) = delays l + delays m := by
  induction l with
  | nil => simp [delays]
  | cons a l ih => cases a <;> (simp [delays, ih]; try omega)

@[simp] theorem actTrace_nil : actTrace [] = [] := rfl

@[simp] theorem actTrace_cons (a : Act) : actTrace (a :: l) = a.events ++ actTrace l := rfl

@[simp] theorem actTrace_append : actTrace (l ++ m) = actTrace l ++ actTrace m := by simp [actTrace]

@[simp] theorem actCs_append (c : Bool) : actCs (l ++ m) c = actCs m (actCs l c) := by
  induction l generalizing c with
  | nil => rfl
  | cons a l ih => cases a <;> simp [actCs, ih]

@[simp] theorem actMode_append (c : Mode) : actMode (l ++ m) c = actMode m (actMode l c) := by
  induction l generalizing c with
  | nil => rfl
  | cons a l ih => cases a <;> simp [actMode, ih]

end

section
variable (s : State) (l : List Act)
@[simp] theorem State.afterActs_fb : (s.afterActs l).fb = s.fb := rfl
@[simp] theorem State.afterActs_mode : (s.afterActs l).mode = actMode l s.mode := rfl
@[simp] theorem State.afterActs_busy : (s.afterActs l).busy = s.busy := rfl
@[simp] theorem State.afterActs_cs : (s.afterActs l).cs = actCs l s.cs := rfl
@[simp] theorem State.afterActs_out : (s.afterActs l).out = s.out ++ actTrace l := rfl
@[simp] theorem State.afterActs_rsp : (s.afterActs l).rsp = s.rsp := rfl
@[simp] theorem State.afterActs_host : (s.afterActs l).host = s.host := rfl
@[simp] theorem State.afterActs_tx : (s.afterActs l).tx = s.tx.after (sends l) := rfl
@[simp] theorem State.afterActs_dly : (s.afterActs l).dly = s.dly.after (delays l) := rfl
end

theorem State.txAnswer_afterActs (s : State) (l : List Act) (k : Nat) :
    (s.afterActs l).txAnswer k = s.txAnswer (sends l + k) := by
  simp [State.txAnswer, Feed.answerAt_after]

theorem State.delayAnswer_afterActs (s : State) (l : List Act) (k : Nat) :
    (s.afterActs l).delayAnswer k = s.delayAnswer (delays l + k) := by
  simp [State.delayAnswer, Feed.answerAt_after]

theorem State.afterActs_append (s : State) (l m : List Act) : s.afterActs (l ++ m) = (s.afterActs l).afterActs m := by
  simp [State.afterActs]

/-- Every port call of the actions answers well. -/
abbrev State.ActsAnswered (s : State) (l : List Act) : Prop :=
  (∀ k < sends l, s.txAnswer k = .answered .ok) ∧ ∀ k < delays l, s.delayAnswer k = .returned

/-! ### The run -/

theorem runActs_append (l m : List Act) (s : State) :
    runActs (l ++ m) s =
      match runActs l s with
      | (.done, t) => runActs m t
      | (.failed, t) => (.failed, t)
      | (.stalled, t) => (.stalled, t) := by
  induction l generalizing s with
  | nil => rfl
  | cons a l ih =>
    cases a with
    | select b => exact ih _
    | toMode m => exact ih _
    | send q p =>
      simp only [List.cons_append, runActs]
      rcases txWrite p s with ⟨a, t⟩
      rcases a with (_ | _) | _ <;> simp [ih]
    | settle q n =>
      simp only [List.cons_append, runActs]
      rcases delay n s with ⟨a, t⟩
      cases a <;> simp [ih]

/-- When every port call answers well, the actions run to their end. -/
theorem runActs_done (l : List Act) (s : State) (h : s.ActsAnswered l) : runActs l s = (.done, s.afterActs l) := by
  induction l generalizing s with
  | nil => simp [runActs, State.afterActs, actMode, actCs, sends, delays]
  | cons a l ih =>
    obtain ⟨ht, hd⟩ := h
    rw [show s.afterActs (a :: l) = (s.afterActs [a]).afterActs l from State.afterActs_append s [a] l]
    cases a with
    | select b =>
      have := ih (s.csSet b) ⟨ht, hd⟩
      simpa [runActs, State.afterActs, actMode, actCs, sends, delays, State.csSet, Act.events] using this
    | toMode m =>
      have := ih (s.setMode m) ⟨ht, hd⟩
      simpa [runActs, State.afterActs, actMode, actCs, sends, delays, State.setMode, Act.events] using this
    | send q p =>
      have := ih { s with tx := s.tx.after 1, out := s.out ++ [.tx p .ok] } ⟨fun k hk => by
        rw [← ht (1 + k) (by simp only [sends]; omega)]
        exact Feed.answerAt_after .., hd⟩
      rw [runActs, txWrite_of_ok p (ht 0 (by simp [sends]))]
      simpa [State.afterActs, actMode, actCs, sends, delays, Act.events] using this
    | settle q n =>
      have := ih { s with dly := s.dly.after 1, out := s.out ++ [.dly n] } ⟨ht, fun k hk => by
        rw [← hd (1 + k) (by simp only [delays]; omega)]
        exact Feed.answerAt_after ..⟩
      rw [runActs, delay_eq, hd 0 (by simp [delays])]
      simpa [State.afterActs, actMode, actCs, sends, delays, Act.events] using this

/-- A `TxWrite` that answers `fail`, all calls before it answering well, ends the run. -/
theorem runActs_failed (l m : List Act) (q : SeqPoint) (p : Packet) (s : State) (h : s.ActsAnswered l)
    (hf : s.txAnswer (sends l) = .answered .fail) :
    runActs (l ++ .send q p :: m) s =
      (.failed, { s.afterActs l with tx := s.tx.after (sends l + 1), out := s.out ++ actTrace l ++ [.tx p .fail] }) := by
  have hf' : (s.afterActs l).txAnswer 0 = .answered .fail := by rw [State.txAnswer_afterActs]; exact hf
  rw [runActs_append, runActs_done l s h]
  simp [runActs, txWrite_of_fail p hf']

/-- A `TxWrite` that never returns, all calls before it answering well, leaves the operation in progress. -/
theorem runActs_send_stalled (l m : List Act) (q : SeqPoint) (p : Packet) (s : State) (h : s.ActsAnswered l)
    (hf : s.txAnswer (sends l) = .never) :
    runActs (l ++ .send q p :: m) s =
      (.stalled, { s.afterActs l with busy := some q, tx := s.tx.after (sends l + 1) }) := by
  have hf' : (s.afterActs l).txAnswer 0 = .never := by rw [State.txAnswer_afterActs]; exact hf
  rw [runActs_append, runActs_done l s h]
  simp [runActs, txWrite_of_never p hf', State.setBusy]

/-- A `Delay` that never returns, all calls before it answering well, leaves the operation in progress. -/
theorem runActs_settle_stalled (l m : List Act) (q : SeqPoint) (n : Nat) (s : State) (h : s.ActsAnswered l)
    (hf : s.delayAnswer (delays l) = .never) :
    runActs (l ++ .settle q n :: m) s =
      (.stalled, { s.afterActs l with
        busy := some q, dly := s.dly.after (delays l + 1), out := s.out ++ actTrace l ++ [.dly n] }) := by
  have hf' : (s.afterActs l).delayAnswer 0 = .never := by rw [State.delayAnswer_afterActs]; exact hf
  rw [runActs_append, runActs_done l s h]
  simp [runActs, delay_eq, hf', State.setBusy]

/-- Where a run of actions can stop: at its end, or in one of its port calls, all calls before it answering well. -/
theorem acts_split (l : List Act) (s : State) :
    s.ActsAnswered l ∨
    (∃ l₁ q p l₂, l = l₁ ++ .send q p :: l₂ ∧ s.ActsAnswered l₁ ∧
      (s.txAnswer (sends l₁) = .answered .fail ∨ s.txAnswer (sends l₁) = .never)) ∨
    (∃ l₁ q n l₂, l = l₁ ++ .settle q n :: l₂ ∧ s.ActsAnswered l₁ ∧ s.delayAnswer (delays l₁) = .never) := by
  induction l using List.reverseRecOn with
  | nil => exact .inl ⟨by simp [sends], by simp [delays]⟩
  | append_singleton l a ih =>
    rcases ih with h | ⟨l₁, q, p, l₂, rfl, h⟩ | ⟨l₁, q, n, l₂, rfl, h⟩
    · cases a with
      | select b => exact .inl ⟨by simpa [sends] using h.1, by simpa [delays] using h.2⟩
      | toMode m => exact .inl ⟨by simpa [sends] using h.1, by simpa [delays] using h.2⟩
      | send q p =>
        cases ha : s.txAnswer (sends l) with
        | never => exact .inr (.inl ⟨l, q, p, [], rfl, h, .inr ha⟩)
        | answered r =>
          cases r with
          | fail => exact .inr (.inl ⟨l, q, p, [], rfl, h, .inl ha⟩)
          | ok =>
            refine .inl ⟨fun k hk => ?_, by simpa [delays] using h.2⟩
            simp only [sends_append, sends] at hk
            rcases Nat.lt_or_ge k (sends l) with hlt | hge
            · exact h.1 k hlt
            · rw [show k = sends l by omega]; exact ha
      | settle q n =>
        cases ha : s.delayAnswer (delays l) with
        | never => exact .inr (.inr ⟨l, q, n, [], rfl, h, ha⟩)
        | returned =>
          refine .inl ⟨by simpa [sends] using h.1, fun k hk => ?_⟩
          simp only [delays_append, delays] at hk
          rcases Nat.lt_or_ge k (delays l) with hlt | hge
          · exact h.2 k hlt
          · rw [show k = delays l by omega]; exact ha
    · exact .inr (.inl ⟨l₁, q, p, l₂ ++ [a], by simp, h⟩)
    · exact .inr (.inr ⟨l₁, q, n, l₂ ++ [a], by simp, h⟩)

/-- Everything a run of actions can do. -/
theorem runActs_cases (l : List Act) (s : State) :
    (s.ActsAnswered l ∧ runActs l s = (.done, s.afterActs l)) ∨
    (∃ l₁ q p l₂, l = l₁ ++ .send q p :: l₂ ∧ s.ActsAnswered l₁ ∧ s.txAnswer (sends l₁) = .answered .fail ∧
      runActs l s = (.failed, { s.afterActs l₁ with
        tx := s.tx.after (sends l₁ + 1), out := s.out ++ actTrace l₁ ++ [.tx p .fail] })) ∨
    (∃ l₁ q p l₂, l = l₁ ++ .send q p :: l₂ ∧ s.ActsAnswered l₁ ∧ s.txAnswer (sends l₁) = .never ∧
      runActs l s = (.stalled, { s.afterActs l₁ with busy := some q, tx := s.tx.after (sends l₁ + 1) })) ∨
    (∃ l₁ q n l₂, l = l₁ ++ .settle q n :: l₂ ∧ s.ActsAnswered l₁ ∧ s.delayAnswer (delays l₁) = .never ∧
      runActs l s = (.stalled, { s.afterActs l₁ with
        busy := some q, dly := s.dly.after (delays l₁ + 1), out := s.out ++ actTrace l₁ ++ [.dly n] })) := by
  rcases acts_split l s with h | ⟨l₁, q, p, l₂, rfl, h, hf | hf⟩ | ⟨l₁, q, n, l₂, rfl, h, hf⟩
  · exact .inl ⟨h, runActs_done l s h⟩
  · exact .inr (.inl ⟨l₁, q, p, l₂, rfl, h, hf, runActs_failed l₁ l₂ q p s h hf⟩)
  · exact .inr (.inr (.inl ⟨l₁, q, p, l₂, rfl, h, hf, runActs_send_stalled l₁ l₂ q p s h hf⟩))
  · exact .inr (.inr (.inr ⟨l₁, q, n, l₂, rfl, h, hf, runActs_settle_stalled l₁ l₂ q n s h hf⟩))

/-- A run of actions leaves FB, the responses and the host's moves as they were (40_framebuffer.md R83). -/
theorem runActs_frame (l : List Act) (s : State) :
    (runActs l s).2.fb = s.fb ∧ (runActs l s).2.rsp = s.rsp ∧ (runActs l s).2.host = s.host := by
  rcases runActs_cases l s with ⟨-, h⟩ | ⟨_, _, _, _, -, -, -, h⟩ | ⟨_, _, _, _, -, -, -, h⟩ |
    ⟨_, _, _, _, -, -, -, h⟩ <;> rw [h] <;> exact ⟨rfl, rfl, rfl⟩

/-- A run of actions only appends to OUT (10_state.md R23). -/
theorem runActs_out_grows (l : List Act) (s : State) : s.out <+: (runActs l s).2.out := by
  rcases runActs_cases l s with ⟨-, h⟩ | ⟨_, _, _, _, -, -, -, h⟩ | ⟨_, _, _, _, -, -, -, h⟩ |
    ⟨_, _, _, _, -, -, -, h⟩ <;> rw [h] <;> simp [List.append_assoc]

end Sys2Proof.Machine
end

