-- ==== Sys2Proof/Laws/Codec.lean ====
section
/-! SUPPORT. The laws of the packet codec and of the address translator. -/

namespace Sys2Proof.Machine

/-! ### The codec -/

/-- The sync byte's fields: the pattern, bit 0, and the two flags at their positions (30_encoding.md R57). -/
theorem syncByte_fields (p : Params) (rs rw : Bool) (h : p.wf) :
    (syncByte p rs rw).extractLsb' 3 5 = p.syncHigh ∧ (syncByte p rs rw).extractLsb' 0 1 = p.syncLsb ∧
    (syncByte p rs rw).getLsbD p.rsPos = rs ∧ (syncByte p rs rw).getLsbD p.rwPos = rw := by
  obtain ⟨hpos, -⟩ := h
  obtain ⟨high, rwp, rsp, lsb⟩ := p
  simp only [syncByte] at hpos ⊢
  rcases hpos with ⟨h1, h2⟩ | ⟨h1, h2⟩ <;> subst h1 h2 <;> revert high lsb rs rw <;> decide

/-- The two flags and the two constant fields are all of the sync byte. -/
theorem syncByte_of_fields (p : Params) (b : Byte) (h : p.wf) (hh : b.extractLsb' 3 5 = p.syncHigh)
    (hl : b.extractLsb' 0 1 = p.syncLsb) : syncByte p (b.getLsbD p.rsPos) (b.getLsbD p.rwPos) = b := by
  obtain ⟨hpos, -⟩ := h
  obtain ⟨high, rwp, rsp, lsb⟩ := p
  simp only [syncByte] at hpos hh hl ⊢
  subst hh hl
  rcases hpos with ⟨h1, h2⟩ | ⟨h1, h2⟩ <;> subst h1 h2 <;> revert b <;> decide

/-- The nibble bytes (30_encoding.md R58). -/
theorem nibbles (value : Byte) :
    (value &&& 0xF0#8).extractLsb' 0 4 = 0#4 ∧ (value <<< 4).extractLsb' 0 4 = 0#4 ∧
    (value &&& 0xF0#8).extractLsb' 4 4 = value.extractLsb' 4 4 ∧
    (value <<< 4).extractLsb' 4 4 = value.extractLsb' 0 4 ∧
    (value &&& 0xF0#8).extractLsb' 4 4 ++ (value <<< 4).extractLsb' 4 4 = value := by
  revert value; decide

/-- Packet decoding inverts `encode` (30_encoding.md R62). -/
theorem decodePacket_encodePacket (p : Params) (h : p.wf) (value : Byte) (rs rw : Bool) :
    decodePacket p (encodePacket p value rs rw) = some ⟨value, rs, rw⟩ := by
  obtain ⟨h1, h2, h3, h4⟩ := syncByte_fields p rs rw h
  obtain ⟨n1, n2, -, -, n5⟩ := nibbles value
  unfold decodePacket
  rw [if_pos (show (encodePacket p value rs rw).WellFormed p from ⟨h1, h2, n1, n2⟩)]
  simp only [encodePacket, h3, h4, n5]

/-- The parameters of the block meet the spec's constraints. -/
theorem block_wf : Config.block.wf := by
  refine ⟨.inl ⟨rfl, rfl⟩, by decide, Nat.succ_pos _, Nat.succ_pos _⟩

@[simp] theorem decodePacket_block (value : Byte) (rs rw : Bool) :
    decodePacket Config.block (encodePacket Config.block value rs rw) = some ⟨value, rs, rw⟩ :=
  decodePacket_encodePacket _ block_wf ..

/-- The block's sync byte (30_encoding.md R57, with the default literals). -/
theorem syncByte_block (rs rw : Bool) : syncByte Config.block rs rw =
    0xF8#8 ||| (if rw then 0x04#8 else 0x00#8) ||| (if rs then 0x02#8 else 0x00#8) := by
  revert rs rw; decide

/-! ### The translator -/

theorem wordPosition_coe (r : Row) (g : Group) : wordPosition r.val g.val = some (r, g) := by
  simp [wordPosition]

theorem wordPosition_of_out (r g : Nat) (h : 64 ≤ r ∨ 8 ≤ g) : wordPosition r g = none := by
  unfold wordPosition
  split
  · split
    · omega
    · rfl
  · rfl

/-- `unxlate` inverts `xlate` (42_address_translator.md R97). -/
theorem unxlate_xlate (r : Row) (g : Group) : unxlate (xlate r g).1 (xlate r g).2 = (r, g) := by
  unfold xlate
  split <;> simp only [unxlate, Prod.mk.injEq] <;> constructor <;> apply Fin.ext <;> simp only <;> omega

/-- `xlate` inverts `unxlate` (42_address_translator.md R97). -/
theorem xlate_unxlate (v : Vertical) (h : Horizontal) : xlate (unxlate v h).1 (unxlate v h).2 = (v, h) := by
  have h1 : (unxlate v h).1.val = v.val + 32 * (h.val / 8) := rfl
  have h2 : (unxlate v h).2.val = h.val % 8 := rfl
  unfold xlate
  split <;> simp only [Prod.mk.injEq] <;> constructor <;> apply Fin.ext <;> simp only <;> omega

/-- Different word positions have different addresses (42_address_translator.md R97). -/
theorem xlate_injective {r r' : Row} {g g' : Group} (h : xlate r g = xlate r' g') : r = r' ∧ g = g' := by
  have h1 := unxlate_xlate r g
  have h2 := unxlate_xlate r' g'
  rw [h, h2] at h1
  simp only [Prod.mk.injEq] at h1
  exact ⟨h1.1.symm, h1.2.symm⟩

/-- A row's addresses: one vertical part, horizontal parts counted from that of group 0 (42_address_translator.md
R97). -/
theorem xlate_row (r : Row) (g : Group) :
    (xlate r g).1 = (xlate r 0).1 ∧ (xlate r g).2.val = (xlate r 0).2.val + g.val := by
  unfold xlate
  split
  · simp
  · simp; omega

end Sys2Proof.Machine
end

