-- ==== Sys2Proof/Laws/Decode.lean ====
section
/-! SUPPORT. The fields of a command word, read back and written, and the operand conversions. -/

namespace Sys2Proof

@[simp] theorem opField_packCmd (op : Byte) (a b : BitVec 16) : opField (packCmd op a b) = op := by
  unfold opField packCmd
  ext i hi
  simp only [BitVec.getElem_extractLsb', BitVec.getLsbD_append]
  simp [show ¬32 + i < 16 by omega, show ¬32 + i - 16 < 16 by omega, show 32 + i - 16 - 16 = i by omega,
    BitVec.getLsbD_eq_getElem hi]

@[simp] theorem aField_packCmd (op : Byte) (a b : BitVec 16) : aField (packCmd op a b) = a := by
  unfold aField packCmd
  ext i hi
  simp only [BitVec.getElem_extractLsb', BitVec.getLsbD_append]
  simp [show ¬16 + i < 16 by omega, hi]

@[simp] theorem bField_packCmd (op : Byte) (a b : BitVec 16) : bField (packCmd op a b) = b := by
  unfold bField packCmd
  ext i hi
  simp only [BitVec.getElem_extractLsb', BitVec.getLsbD_append]
  simp [hi]

/-- A command word is its three fields. -/
theorem packCmd_fields (w : Cmd) : packCmd (opField w) (aField w) (bField w) = w := by
  unfold packCmd opField aField bField
  ext i hi
  simp only [BitVec.getElem_append, BitVec.getElem_extractLsb']
  split
  · simp [BitVec.getLsbD_eq_getElem hi]
  · split
    · rw [show 16 + (i - 16) = i by omega, BitVec.getLsbD_eq_getElem hi]
    · rw [show 32 + (i - 16 - 16) = i by omega, BitVec.getLsbD_eq_getElem hi]

@[simp] theorem opField_encode (i : Instr) : opField (encode i) = opcode i := opField_packCmd ..
@[simp] theorem aField_encode (i : Instr) : aField (encode i) = operandA i := aField_packCmd ..
@[simp] theorem bField_encode (i : Instr) : bField (encode i) = operandB i := bField_packCmd ..

/-- `sext_16` reads back a coordinate that fits its field. -/
theorem sext16_ofInt (x : Int) (h : Sext16 x) : sext16 (BitVec.ofInt 16 x) = x := by
  unfold sext16
  rw [BitVec.toInt_ofInt]
  exact Int.bmod_eq_of_le (by omega) (by omega)

/-- `zext_16` reads back an operand that fits its field. -/
theorem zext16_ofNat (n : Nat) (h : Zext16 n) : zext16 (BitVec.ofNat 16 n) = n := by
  unfold zext16
  rw [BitVec.toNat_ofNat]
  exact Nat.mod_eq_of_lt h

theorem ofInt_sext16 (v : BitVec 16) : BitVec.ofInt 16 (sext16 v) = v := BitVec.ofInt_toInt

theorem ofNat_zext16 (v : BitVec 16) : BitVec.ofNat 16 (zext16 v) = v := BitVec.ofNat_toNat 16 v |>.trans (by simp)

theorem sext16_range (v : BitVec 16) : Sext16 (sext16 v) := by
  have h1 := BitVec.le_toInt v
  have h2 := BitVec.toInt_lt (x := v)
  unfold sext16
  constructor <;> omega

theorem zext16_range (v : BitVec 16) : Zext16 (zext16 v) := v.isLt

/-- The operand fields of ENCODE read back (30_encoding.md R51, format K). -/
theorem codecA (value : Byte) :
    (0#8 ++ value).extractLsb' 8 8 = 0#8 ∧ (0#8 ++ value).extractLsb' 0 8 = value := by
  revert value; decide

theorem codecB (rs rw : Bool) :
    (0#14 ++ BitVec.ofBool rw ++ BitVec.ofBool rs).extractLsb' 2 14 = 0#14 ∧
    (0#14 ++ BitVec.ofBool rw ++ BitVec.ofBool rs).getLsbD 0 = rs ∧
    (0#14 ++ BitVec.ofBool rw ++ BitVec.ofBool rs).getLsbD 1 = rw := by
  revert rs rw; decide

/-- The operand fields of a word of format K are those of what it carries (30_encoding.md R51). -/
theorem codec_fields (a b : BitVec 16) (ha : a.extractLsb' 8 8 = 0#8) (hb : b.extractLsb' 2 14 = 0#14) :
    0#8 ++ a.extractLsb' 0 8 = a ∧ 0#14 ++ BitVec.ofBool (b.getLsbD 1) ++ BitVec.ofBool (b.getLsbD 0) = b := by
  constructor
  · ext i hi
    simp only [BitVec.getElem_append, BitVec.getElem_extractLsb']
    split
    · simp [BitVec.getLsbD_eq_getElem hi]
    · have := congrArg (fun v => v.getLsbD (i - 8)) ha
      simp only [BitVec.getLsbD_extractLsb'] at this
      rw [show 8 + (i - 8) = i by omega, decide_eq_true (show i - 8 < 8 by omega)] at this
      simp [BitVec.getLsbD_eq_getElem hi] at this
      simp [this]
  · ext i hi
    simp only [BitVec.getElem_append]
    have := congrArg (fun v => v.getLsbD (i - 2)) hb
    simp only [BitVec.getLsbD_extractLsb'] at this
    rcases i with _ | _ | i
    · simp
    · simp
    · rw [show 2 + (i + 1 + 1 - 2) = i + 2 by omega, decide_eq_true (show i + 1 + 1 - 2 < 14 by omega)] at this
      simp [BitVec.getLsbD_eq_getElem hi] at this
      simp [this]

theorem opField_of_toNat {w : Cmd} {n : Nat} (h : (opField w).toNat = n) : opField w = BitVec.ofNat 8 n := by
  rw [← h]; simp

theorem packCmd_inj {op op' : Byte} {a a' b b' : BitVec 16} :
    packCmd op a b = packCmd op' a' b' ↔ op = op' ∧ a = a' ∧ b = b' := by
  refine ⟨fun h => ?_, fun h => by rw [h.1, h.2.1, h.2.2]⟩
  have h1 := congrArg opField h
  have h2 := congrArg aField h
  have h3 := congrArg bField h
  simp only [opField_packCmd, aField_packCmd, bField_packCmd] at h1 h2 h3
  exact ⟨h1, h2, h3⟩

theorem packCmd_and (op op' : Byte) (a a' b b' : BitVec 16) :
    packCmd op a b &&& packCmd op' a' b' = packCmd (op &&& op') (a &&& a') (b &&& b') := by
  unfold packCmd
  refine BitVec.eq_of_getLsbD_eq fun i hi => ?_
  simp only [BitVec.getLsbD_and, BitVec.getLsbD_append]
  split
  · rfl
  · split <;> rfl

/-- A word matches a row of the opcode table field by field. -/
theorem matches_iff (t : TableRow) (w : Cmd) : t.Matches w ↔
    opField w &&& opField t.mask = opField t.pattern ∧ aField w &&& aField t.mask = aField t.pattern ∧
      bField w &&& bField t.mask = bField t.pattern := by
  unfold TableRow.Matches
  conv_lhs => rw [← packCmd_fields w, ← packCmd_fields t.mask, ← packCmd_fields t.pattern, packCmd_and, packCmd_inj]

end Sys2Proof
end

