-- ==== Sys2Proof/Laws/Memory.lean ====
section
/-! SUPPORT. The laws of the framebuffer as memory: what is read after a write, and that every operation keeps the
canonical form, in which equal contents are equal data. -/

namespace Sys2Proof.Machine

namespace Memory

@[simp] theorem read_nil (a : Nat) : Memory.read [] a = 0x00#8 := rfl

@[simp] theorem read_cleared (a : Nat) : Memory.cleared.read a = 0x00#8 := rfl

theorem read_cons (k : Nat) (v : Byte) (m : Memory) (a : Nat) :
    Memory.read ((k, v) :: m) a = if a = k then v else Memory.read m a := rfl

/-- An index that no cell lists reads as 0x00. -/
theorem read_of_not_listed (m : Memory) (a : Nat) (h : ∀ c ∈ m, c.1 ≠ a) : m.read a = 0x00#8 := by
  induction m with
  | nil => rfl
  | cons c m ih =>
    obtain ⟨k, v⟩ := c
    have hk : k ≠ a := h (k, v) (by simp)
    rw [read_cons, if_neg (Ne.symm hk)]
    exact ih fun c hc => h c (by simp [hc])

theorem read_erase (m : Memory) (a b : Nat) : (m.erase a).read b = if b = a then 0x00#8 else m.read b := by
  induction m with
  | nil => simp [Memory.erase]
  | cons c m ih =>
    obtain ⟨k, v⟩ := c
    unfold Memory.erase at ih ⊢
    by_cases hk : k = a
    · subst hk
      rw [List.filter_cons_of_neg (by simp), ih, read_cons]
      split <;> simp_all
    · rw [List.filter_cons_of_pos (by simpa using hk), read_cons, read_cons, ih]
      by_cases hb : b = k
      · subst hb; simp [hk]
      · simp [hb]

theorem read_insert (m : Memory) (a : Nat) (v : Byte) (b : Nat) :
    (m.insert a v).read b = if b = a then v else m.read b := by
  induction m with
  | nil => rfl
  | cons c m ih =>
    obtain ⟨k, w⟩ := c
    unfold Memory.insert
    split
    · rfl
    · split
      · next _ h => subst h; simp only [read_cons]; split <;> rfl
      · next _ h =>
        simp only [read_cons, ih]
        by_cases hb : b = k
        · subst hb; simp [Ne.symm h]
        · simp [hb]

/-- A byte read after a write: the value written at its index, the old one elsewhere. -/
theorem read_write (m : Memory) (a : Nat) (v : Byte) (b : Nat) :
    (m.write a v).read b = if b = a then v else m.read b := by
  unfold Memory.write
  split
  · next h => subst h; exact read_erase m a b
  · exact read_insert m a v b

theorem wf_cleared : Memory.cleared.wf := by decide

theorem wf_erase (m : Memory) (a : Nat) (h : m.wf) : (m.erase a).wf :=
  ⟨h.1.sublist List.filter_sublist, fun c hc => h.2 c (List.mem_of_mem_filter hc)⟩

theorem mem_insert (m : Memory) (a : Nat) (v : Byte) (c : Host.Cell) (hc : c ∈ m.insert a v) :
    c = (a, v) ∨ c ∈ m := by
  induction m with
  | nil => simpa [Memory.insert] using hc
  | cons d m ih =>
    obtain ⟨k, w⟩ := d
    unfold Memory.insert at hc
    split at hc
    · simpa using hc
    · split at hc
      · simp only [List.mem_cons] at hc ⊢
        tauto
      · simp only [List.mem_cons] at hc ⊢
        rcases hc with hc | hc
        · exact .inr (.inl hc)
        · rcases ih hc with h | h
          · exact .inl h
          · exact .inr (.inr h)

theorem wf_insert (m : Memory) (a : Nat) (v : Byte) (ha : a < 1024) (hv : v ≠ Memory.unlisted) (h : m.wf) :
    (m.insert a v).wf := by
  refine ⟨?_, fun c hc => ?_⟩
  · obtain ⟨h, -⟩ := h
    induction m with
    | nil => simp [Memory.insert]
    | cons d m ih =>
      obtain ⟨k, w⟩ := d
      obtain ⟨hd, hm⟩ := List.pairwise_cons.1 h
      unfold Memory.insert
      split
      · next hk =>
        refine List.pairwise_cons.2 ⟨fun c hc => ?_, h⟩
        rcases List.mem_cons.1 hc with rfl | hc
        · exact hk
        · exact lt_trans hk (hd c hc)
      · split
        · next _ hk => subst hk; exact List.pairwise_cons.2 ⟨hd, hm⟩
        · next h1 h2 =>
          refine List.pairwise_cons.2 ⟨fun c hc => ?_, ih hm⟩
          rcases mem_insert m a v c hc with rfl | hc
          · exact lt_of_le_of_ne (not_lt.1 h1) (Ne.symm h2)
          · exact hd c hc
  · rcases mem_insert m a v c hc with rfl | hc
    · exact ⟨ha, hv⟩
    · exact h.2 c hc

/-- A write keeps the canonical form. -/
theorem wf_write (m : Memory) (a : Nat) (v : Byte) (ha : a < 1024) (h : m.wf) : (m.write a v).wf := by
  unfold Memory.write
  split
  · exact wf_erase m a h
  · next hv => exact wf_insert m a v ha hv h

/-- In canonical form an index is listed exactly when it does not read as 0x00. -/
theorem read_of_mem (m : Memory) (h : m.wf) (c : Host.Cell) (hc : c ∈ m) : m.read c.1 = c.2 := by
  obtain ⟨h, -⟩ := h
  induction m with
  | nil => simp at hc
  | cons d m ih =>
    obtain ⟨k, w⟩ := d
    obtain ⟨hd, hm⟩ := List.pairwise_cons.1 h
    rw [read_cons]
    rcases List.mem_cons.1 hc with rfl | hc
    · simp
    · rw [if_neg (ne_of_gt (hd c hc)), ih hc hm]

/-- Canonical memories with the same contents are the same data. -/
theorem ext_of_read {m n : Memory} (hm : m.wf) (hn : n.wf) (h : ∀ a < 1024, m.read a = n.read a) : m = n := by
  induction m generalizing n with
  | nil =>
    cases n with
    | nil => rfl
    | cons d n =>
      have hd := hn.2 d (by simp)
      have := h d.1 hd.1
      rw [read_of_mem _ hn d (by simp)] at this
      exact absurd this.symm hd.2
  | cons c m ih =>
    cases n with
    | nil =>
      have hc := hm.2 c (by simp)
      have := h c.1 hc.1
      rw [read_of_mem _ hm c (by simp)] at this
      exact absurd this hc.2
    | cons d n =>
      obtain ⟨a, v⟩ := c
      obtain ⟨b, w⟩ := d
      obtain ⟨hma, hm'⟩ := List.pairwise_cons.1 hm.1
      obtain ⟨hnb, hn'⟩ := List.pairwise_cons.1 hn.1
      have ha := hm.2 (a, v) (by simp)
      have hb := hn.2 (b, w) (by simp)
      have zero : ∀ (k x : Nat) (u : Byte) (l : Memory), (∀ c ∈ l, k < c.1) → x < k →
          Memory.read ((k, u) :: l) x = 0x00#8 := by
        intro k x u l hl hx
        refine read_of_not_listed _ _ fun c hc => ?_
        rcases List.mem_cons.1 hc with rfl | hc
        · exact ne_of_gt hx
        · exact ne_of_gt (lt_trans hx (hl c hc))
      have hab : a = b := by
        rcases lt_trichotomy a b with hlt | heq | hgt
        · have := h a ha.1
          rw [zero b a w n hnb hlt, read_cons, if_pos rfl] at this
          exact absurd this ha.2
        · exact heq
        · have := h b hb.1
          rw [zero a b v m hma hgt, read_cons, if_pos rfl] at this
          exact absurd this.symm hb.2
      subst hab
      have hvw : v = w := by simpa [read_cons] using h a ha.1
      subst hvw
      have : m = n := by
        refine ih ⟨hm', fun c hc => hm.2 c (by simp [hc])⟩ ⟨hn', fun c hc => hn.2 c (by simp [hc])⟩ fun x hx => ?_
        by_cases hxa : x = a
        · subst hxa
          rw [read_of_not_listed m x fun c hc => ne_of_gt (hma c hc),
            read_of_not_listed n x fun c hc => ne_of_gt (hnb c hc)]
        · simpa [read_cons, hxa] using h x hx
      rw [this]

end Memory

/-! ### The primitives MemRead and MemWrite -/

@[simp] theorem memRead1_cleared (i : ByteIndex) : memRead1 Memory.cleared i = 0x00#8 := rfl

/-- `MemRead` after `MemWrite` (00_scope.md R11). -/
theorem memRead1_memWrite1 (fb : Memory) (i : ByteIndex) (v : Byte) (j : ByteIndex) :
    memRead1 (memWrite1 fb i v) j = if j = i then v else memRead1 fb j := by
  unfold memRead1 memWrite1
  rw [Memory.read_write]
  simp only [Fin.val_inj]

/-- `MemWrite` keeps the canonical form. -/
theorem wf_memWrite1 (fb : Memory) (i : ByteIndex) (v : Byte) (h : fb.wf) : (memWrite1 fb i v).wf :=
  Memory.wf_write fb i v i.isLt h

/-- Canonical framebuffers with the same bytes are the same data. -/
theorem fb_ext {m n : Memory} (hm : m.wf) (hn : n.wf) (h : ∀ i : ByteIndex, memRead1 m i = memRead1 n i) : m = n :=
  Memory.ext_of_read hm hn fun a ha => h ⟨a, ha⟩

end Sys2Proof.Machine
end

