-- ==== Sys2Proof/Laws/Framebuffer.lean ====
section
/-! SUPPORT. The laws of the addressing function and of the pixel operations on the framebuffer. -/

namespace Sys2Proof.Machine

/-! ### Coordinates -/

theorem pixelAt_of_inRange (x y : Int) (h : 0 ≤ x ∧ x < 128) (k : 0 ≤ y ∧ y < 64) :
    pixelAt x y = some (column x h, row y k) := by
  unfold pixelAt
  rw [dif_pos h, dif_pos k]

theorem pixelAt_of_offCanvas (x y : Int) (h : ¬InRange x y) : pixelAt x y = none := by
  unfold pixelAt
  split
  · split
    · exact absurd ⟨by omega, by omega, by omega, by omega⟩ h
    · rfl
  · rfl

/-- A column and a row name themselves. -/
theorem pixelAt_coe (c : Column) (r : Row) : pixelAt (c.val : Int) (r.val : Int) = some (c, r) := by
  rw [pixelAt_of_inRange _ _ (by omega) (by omega)]
  rfl

theorem byteAt_coe (i : ByteIndex) : byteAt i.val = some i := by simp [byteAt]

theorem byteAt_of_ge (i : Nat) (h : 1024 ≤ i) : byteAt i = none := by simp [byteAt, Nat.not_lt.2 h]

/-! ### The addressing function -/

/-- Different pixels have different bits (40_framebuffer.md R79). -/
theorem addressing_injective {c c' : Column} {r r' : Row} (hb : byteIndex c r = byteIndex c' r')
    (hi : bitIndex c = bitIndex c') : c = c' ∧ r = r' := by
  simp only [byteIndex, bitIndex, Fin.mk.injEq] at hb hi
  constructor
  · apply Fin.ext; omega
  · apply Fin.ext; omega

theorem mask_getLsbD (c : Column) (b : Fin 8) : (mask c).getLsbD b = decide (b = bitIndex c) := by
  revert b c
  decide

theorem notMask_getLsbD (c : Column) (b : Fin 8) : (~~~mask c).getLsbD b = !decide (b = bitIndex c) := by
  revert b c
  decide

/-- Setting a pixel: that pixel is on, every other as before (40_framebuffer.md R78). -/
theorem pixel_fbSetPixel (fb : Memory) (c : Column) (r : Row) (c' : Column) (r' : Row) :
    pixel (fbSetPixel fb c r) c' r' = (decide ((c', r') = (c, r)) || pixel fb c' r') := by
  unfold pixel fbSetPixel
  rw [memRead1_memWrite1]
  split
  · next h =>
    rw [BitVec.getLsbD_or, mask_getLsbD, h, Bool.or_comm]
    congr 1
    simp only [decide_eq_decide, Prod.mk.injEq]
    exact ⟨fun hi => addressing_injective h hi, fun e => by rw [e.1]⟩
  · next h =>
    have : ¬(c', r') = (c, r) := fun e => h (by simp only [Prod.mk.injEq] at e; rw [e.1, e.2])
    simp [this]

/-- Clearing a pixel: that pixel is off, every other as before (40_framebuffer.md R78). -/
theorem pixel_fbClearPixel (fb : Memory) (c : Column) (r : Row) (c' : Column) (r' : Row) :
    pixel (fbClearPixel fb c r) c' r' = (!decide ((c', r') = (c, r)) && pixel fb c' r') := by
  unfold pixel fbClearPixel
  rw [memRead1_memWrite1]
  split
  · next h =>
    rw [BitVec.getLsbD_and, notMask_getLsbD, h, Bool.and_comm]
    congr 2
    simp only [decide_eq_decide, Prod.mk.injEq]
    exact ⟨fun hi => addressing_injective h hi, fun e => by rw [e.1]⟩
  · next h =>
    have : ¬(c', r') = (c, r) := fun e => h (by simp only [Prod.mk.injEq] at e; rw [e.1, e.2])
    simp [this]

theorem pixel_cleared (c : Column) (r : Row) : pixel Memory.cleared c r = false := by
  simp [pixel]

theorem wf_fbSetPixel (fb : Memory) (c : Column) (r : Row) (h : fb.wf) : (fbSetPixel fb c r).wf :=
  wf_memWrite1 _ _ _ h

theorem wf_fbClearPixel (fb : Memory) (c : Column) (r : Row) (h : fb.wf) : (fbClearPixel fb c r).wf :=
  wf_memWrite1 _ _ _ h

/-- A bit of a byte is a pixel: the one the inverse of the addressing function names (40_framebuffer.md R79). -/
theorem bit_is_pixel (fb : Memory) (i : ByteIndex) (b : Fin 8) :
    (memRead1 fb i).getLsbD b = pixel fb ⟨8 * (i.val % 16) + (7 - b.val), by omega⟩ ⟨i.val / 16, by omega⟩ := by
  unfold pixel
  congr 1
  · congr 1
    apply Fin.ext
    simp only [byteIndex]
    omega
  · simp only [bitIndex]
    omega

/-- Canonical framebuffers with the same pixels are the same data (40_framebuffer.md R26, R79). -/
theorem fb_ext_of_pixel {m n : Memory} (hm : m.wf) (hn : n.wf) (h : ∀ c r, pixel m c r = pixel n c r) : m = n := by
  refine fb_ext hm hn fun i => ?_
  ext b hb
  rw [← BitVec.getLsbD_eq_getElem hb, ← BitVec.getLsbD_eq_getElem hb]
  have hm' := bit_is_pixel m i ⟨b, hb⟩
  have hn' := bit_is_pixel n i ⟨b, hb⟩
  simp only at hm' hn'
  rw [hm', hn', h]

/-! ### The meanings -/

theorem execSetPixel_coe (c : Column) (r : Row) (s : State) :
    execSetPixel (c.val : Int) (r.val : Int) s = .next ((s.setFb (fbSetPixel s.fb c r)).answer 0#24) := by
  simp only [execSetPixel, pixelAt_coe]

theorem execClearPixel_coe (c : Column) (r : Row) (s : State) :
    execClearPixel (c.val : Int) (r.val : Int) s = .next ((s.setFb (fbClearPixel s.fb c r)).answer 0#24) := by
  simp only [execClearPixel, pixelAt_coe]

theorem execGetPixel_coe (c : Column) (r : Row) (s : State) :
    execGetPixel (c.val : Int) (r.val : Int) s = .next (s.answer (pixelData true (pixel s.fb c r))) := by
  simp only [execGetPixel, pixelAt_coe]

end Sys2Proof.Machine
end

