-- ==== Sys2Proof/Laws/Trace.lean ====
section
/-! SUPPORT. The trace of a sequence of actions against the terms claims are stated in: its packets, its cuts, its
delays. -/

namespace Sys2Proof.Machine

/-- An action is a call of the transport or of the delay port. -/
def Act.isCall : Act → Bool
  | .select _ => false
  | .toMode _ => false
  | .send _ _ => true
  | .settle _ _ => true

/-- The packets the actions send, in order. -/
def actPackets (l : List Act) : List Packet :=
  l.filterMap fun | .send _ p => some p | .select _ => none | .toMode _ => none | .settle _ _ => none

@[simp] theorem actPackets_append (l m : List Act) : actPackets (l ++ m) = actPackets l ++ actPackets m := by
  simp [actPackets]

@[simp] theorem actPackets_nil : actPackets [] = [] := rfl

theorem actPackets_cons (a : Act) (l : List Act) : actPackets (a :: l) = actPackets [a] ++ actPackets l :=
  actPackets_append [a] l

@[simp] theorem actPackets_send (q : SeqPoint) (p : Packet) (l : List Act) :
    actPackets (.send q p :: l) = p :: actPackets l := rfl

@[simp] theorem length_actPackets (l : List Act) : (actPackets l).length = sends l := by
  induction l with
  | nil => rfl
  | cons a l ih => cases a <;> simpa [actPackets, sends] using ih

@[simp] theorem txEvents_append (l m : List Event) : txEvents (l ++ m) = txEvents l ++ txEvents m := by
  simp [txEvents]

@[simp] theorem dlyCount_append (l m : List Event) : dlyCount (l ++ m) = dlyCount l + dlyCount m := by
  simp [dlyCount]

/-- The `Tx` events of a trace of answered actions are the packets, all `ok`. -/
theorem txEvents_actTrace (l : List Act) : txEvents (actTrace l) = (actPackets l).map fun p => (p, .ok) := by
  induction l with
  | nil => rfl
  | cons a l ih =>
    rw [actTrace_cons, txEvents_append, ih, actPackets_cons, List.map_append]
    cases a <;> rfl

/-- The `Dly` events of a trace of answered actions are the `Delay` calls. -/
theorem dlyCount_actTrace (l : List Act) : dlyCount (actTrace l) = delays l := by
  induction l with
  | nil => rfl
  | cons a l ih =>
    rw [actTrace_cons, dlyCount_append, ih]
    cases a <;> simp [Act.events, dlyCount, delays, Nat.add_comm]

theorem cutBefore_cs (k : Nat) (b : Bool) (es : List Event) : cutBefore k (.cs b :: es) = .cs b :: cutBefore k es := by
  cases k <;> rfl

theorem cutBefore_dly (k n : Nat) (es : List Event) : cutBefore k (.dly n :: es) = .dly n :: cutBefore k es := by
  cases k <;> rfl

/-- The trace cut before the packet that the first of the remaining actions sends is the trace of the actions
before. -/
theorem cutBefore_actTrace (l m : List Act) (q : SeqPoint) (p : Packet) :
    cutBefore (sends l) (actTrace (l ++ .send q p :: m)) = actTrace l := by
  induction l with
  | nil => rfl
  | cons a l ih =>
    cases a with
    | select b => exact (cutBefore_cs ..).trans (congrArg _ ih)
    | toMode m => exact ih
    | send q p => exact congrArg _ ih
    | settle q n => exact (cutBefore_dly ..).trans (congrArg _ ih)

theorem cutThroughDelay_cs (k : Nat) (b : Bool) (es : List Event) :
    cutThroughDelay k (.cs b :: es) = .cs b :: cutThroughDelay k es := by
  cases k <;> rfl

theorem cutThroughDelay_tx (k : Nat) (p : Packet) (r : TxResult) (es : List Event) :
    cutThroughDelay k (.tx p r :: es) = .tx p r :: cutThroughDelay k es := by
  cases k <;> rfl

/-- The trace cut after the delay that the first of the remaining actions asks for is the trace of the actions before,
and that delay. -/
theorem cutThroughDelay_actTrace (l m : List Act) (q : SeqPoint) (n : Nat) :
    cutThroughDelay (delays l) (actTrace (l ++ .settle q n :: m)) = actTrace l ++ [.dly n] := by
  induction l with
  | nil => rfl
  | cons a l ih =>
    cases a with
    | select b => exact (cutThroughDelay_cs ..).trans (congrArg _ ih)
    | toMode m => exact ih
    | send q p => exact (cutThroughDelay_tx ..).trans (congrArg _ ih)
    | settle q n => exact congrArg _ ih

/-- The action that sends packet number `k`. -/
theorem exists_send (l : List Act) (k : Nat) (p : Packet) (h : (actPackets l)[k]? = some p) :
    ∃ l₁ q l₂, l = l₁ ++ .send q p :: l₂ ∧ sends l₁ = k := by
  induction l generalizing k with
  | nil => simp [actPackets] at h
  | cons a l ih =>
    cases a with
    | select b => obtain ⟨l₁, q, l₂, rfl, e⟩ := ih k h; exact ⟨.select b :: l₁, q, l₂, rfl, e⟩
    | toMode m => obtain ⟨l₁, q, l₂, rfl, e⟩ := ih k h; exact ⟨.toMode m :: l₁, q, l₂, rfl, e⟩
    | settle q' n => obtain ⟨l₁, q, l₂, rfl, e⟩ := ih k h; exact ⟨.settle q' n :: l₁, q, l₂, rfl, e⟩
    | send q' p' =>
      rw [actPackets_send] at h
      cases k with
      | zero =>
        simp only [List.getElem?_cons_zero, Option.some.injEq] at h
        subst h
        exact ⟨[], q', l, rfl, rfl⟩
      | succ k =>
        obtain ⟨l₁, q, l₂, rfl, e⟩ := ih k (by simpa using h)
        exact ⟨.send q' p' :: l₁, q, l₂, rfl, by simp [sends, e]⟩

/-- The packet an action sends, by its number. -/
theorem actPackets_getElem (l m : List Act) (q : SeqPoint) (p : Packet) :
    (actPackets (l ++ .send q p :: m))[sends l]? = some p := by
  rw [actPackets_append, ← length_actPackets l, List.getElem?_append_right (Nat.le_refl _)]
  simp

/-- The action that makes `Delay` call number `k`. -/
theorem exists_settle (l : List Act) (k : Nat) (h : k < delays l) :
    ∃ l₁ q n l₂, l = l₁ ++ .settle q n :: l₂ ∧ delays l₁ = k := by
  induction l generalizing k with
  | nil => simp [delays] at h
  | cons a l ih =>
    cases a with
    | select b => obtain ⟨l₁, q, n, l₂, rfl, e⟩ := ih k h; exact ⟨.select b :: l₁, q, n, l₂, rfl, e⟩
    | toMode m => obtain ⟨l₁, q, n, l₂, rfl, e⟩ := ih k h; exact ⟨.toMode m :: l₁, q, n, l₂, rfl, e⟩
    | send q' p => obtain ⟨l₁, q, n, l₂, rfl, e⟩ := ih k h; exact ⟨.send q' p :: l₁, q, n, l₂, rfl, e⟩
    | settle q' n' =>
      cases k with
      | zero => exact ⟨[], q', n', l, rfl, rfl⟩
      | succ k =>
        obtain ⟨l₁, q, n, l₂, rfl, e⟩ := ih k (by simp only [delays] at h; omega)
        exact ⟨.settle q' n' :: l₁, q, n, l₂, rfl, by simp [delays, e]⟩

theorem sends_flatMap {α : Type} (l : List α) (f : α → List Act) (n : Nat) (h : ∀ a, sends (f a) = n) :
    sends (l.flatMap f) = l.length * n := by
  induction l with
  | nil => simp [sends]
  | cons a l ih => simp [ih, h, Nat.succ_mul, Nat.add_comm]

theorem delays_flatMap {α : Type} (l : List α) (f : α → List Act) (n : Nat) (h : ∀ a, delays (f a) = n) :
    delays (l.flatMap f) = l.length * n := by
  induction l with
  | nil => simp [delays]
  | cons a l ih => simp [ih, h, Nat.succ_mul, Nat.add_comm]

theorem actTrace_flatMap {α : Type} (l : List α) (f : α → List Act) :
    actTrace (l.flatMap f) = l.flatMap fun a => actTrace (f a) := by
  simp [actTrace, List.flatMap_assoc]

theorem actPackets_flatMap {α : Type} (l : List α) (f : α → List Act) :
    actPackets (l.flatMap f) = l.flatMap fun a => actPackets (f a) := by
  simp [actPackets, List.filterMap_flatMap]

/-- Port calls alone leave the chip-select level and the mode. -/
theorem actCs_of_calls (l : List Act) (h : ∀ a ∈ l, a.isCall = true) (c : Bool) : actCs l c = c := by
  induction l with
  | nil => rfl
  | cons a l ih =>
    cases a with
    | select b => simp [Act.isCall] at h
    | toMode m => simp [Act.isCall] at h
    | send q p => exact ih fun a ha => h a (by simp [ha])
    | settle q n => exact ih fun a ha => h a (by simp [ha])

theorem actMode_of_calls (l : List Act) (h : ∀ a ∈ l, a.isCall = true) (m : Mode) : actMode l m = m := by
  induction l with
  | nil => rfl
  | cons a l ih =>
    cases a with
    | select b => simp [Act.isCall] at h
    | toMode m => simp [Act.isCall] at h
    | send q p => exact ih fun a ha => h a (by simp [ha])
    | settle q n => exact ih fun a ha => h a (by simp [ha])

/-- In a bracket of chip select around port calls, a call stands between the two. -/
theorem bracket_split (m l₁ l₂ : List Act) (a : Act) (ha : a.isCall = true)
    (h : [.select true] ++ m ++ [.select false] = l₁ ++ a :: l₂) :
    ∃ m₁ m₂, m = m₁ ++ a :: m₂ ∧ l₁ = .select true :: m₁ := by
  cases l₁ with
  | nil =>
    simp only [List.cons_append, List.nil_append, List.cons.injEq] at h
    rw [← h.1] at ha
    simp [Act.isCall] at ha
  | cons x m₁ =>
    simp only [List.cons_append, List.cons.injEq] at h
    obtain ⟨rfl, h⟩ := h
    induction l₂ using List.reverseRecOn with
    | nil =>
      have := List.append_inj' h rfl
      simp only [List.cons.injEq, and_true] at this
      rw [← this.2] at ha
      simp [Act.isCall] at ha
    | append_singleton l₂ z _ =>
      rw [← List.cons_append, ← List.append_assoc] at h
      exact ⟨m₁, l₂, (List.append_inj' h rfl).1, rfl⟩

/-! ### Where a concatenation splits -/

/-- Where a concatenation splits: the part in which the action stands. -/
theorem flatMap_split {α β : Type} (L : List α) (f : α → List β) (l₁ l₂ : List β) (a : β)
    (h : L.flatMap f = l₁ ++ a :: l₂) :
    ∃ L₁ x L₂ p q, L = L₁ ++ x :: L₂ ∧ f x = p ++ a :: q ∧ l₁ = L₁.flatMap f ++ p := by
  induction L generalizing l₁ with
  | nil => simp at h
  | cons x L ih =>
    rw [List.flatMap_cons] at h
    rcases List.append_eq_append_iff.1 h with ⟨m, h1, h2⟩ | ⟨m, h1, h2⟩
    · obtain ⟨L₁, y, L₂, p, q, rfl, hf, rfl⟩ := ih m h2
      exact ⟨x :: L₁, y, L₂, p, q, rfl, hf, by simp [h1]⟩
    · cases m with
      | nil =>
        obtain ⟨L₁, y, L₂, p, q, rfl, hf, hp⟩ := ih [] (by simpa using h2.symm)
        exact ⟨x :: L₁, y, L₂, p, q, rfl, hf, by simp [List.flatMap_cons, h1, ← hp]⟩
      | cons b m =>
        simp only [List.cons_append, List.cons.injEq] at h2
        obtain ⟨rfl, -⟩ := h2
        exact ⟨[], x, L, l₁, m, rfl, h1, by simp⟩

/-- The members of `finRange` before `x`. -/
theorem finRange_split {n : Nat} {L₁ L₂ : List (Fin n)} {x : Fin n} (h : List.finRange n = L₁ ++ x :: L₂) :
    L₁ = (List.finRange n).take x.val := by
  have hx : L₁.length = x.val := by
    have h1 : (List.finRange n)[L₁.length]? = some x := by rw [h]; simp
    have h2 : L₁.length < (List.finRange n).length := by rw [h]; simp
    rw [List.getElem?_eq_getElem h2] at h1
    simpa using congrArg Fin.val (Option.some.inj h1)
  rw [← hx, h]
  simp

/-! ### What stands in a trace -/

/-- A trace of answered actions has no failed packet. -/
theorem fail_not_mem_actTrace (l : List Act) (k : Packet) : .tx k .fail ∉ actTrace l := by
  induction l with
  | nil => simp
  | cons a l ih => cases a <;> simp [Act.events, ih]

/-- The packets of a trace of answered actions are those the actions send. -/
theorem mem_actTrace_tx (l : List Act) (k : Packet) (r : TxResult) (h : .tx k r ∈ actTrace l) :
    ∃ q, .send q k ∈ l := by
  induction l with
  | nil => simp at h
  | cons a l ih =>
    rw [actTrace_cons, List.mem_append] at h
    rcases h with h | h
    · cases a <;> simp [Act.events] at h
      exact ⟨_, by rw [h.1]; exact List.mem_cons_self⟩
    · obtain ⟨q, hq⟩ := ih h
      exact ⟨q, List.mem_cons_of_mem _ hq⟩

theorem traceCs_append (o e : List Event) : traceCs (o ++ e) = e.foldl Event.csAfter (traceCs o) := by
  simp [traceCs]

/-- The chip-select level of a trace of answered actions is the level the actions leave. -/
theorem csAfter_actTrace (l : List Act) (b : Bool) : (actTrace l).foldl Event.csAfter b = actCs l b := by
  induction l generalizing b with
  | nil => rfl
  | cons a l ih => cases a <;> simp [Act.events, actCs, ih, Event.csAfter]

/-- A trace with no failed packet puts three bytes per packet on the wire. -/
theorem length_wireBytes (es : List Event) (h : ∀ k, .tx k .fail ∉ es) :
    (wireBytes es).length = 3 * (txEvents es).length := by
  have key : ∀ m, ((es.zipIdx m).flatMap fun (e, n) => e.wireBytes n).length = 3 * (txEvents es).length := by
    induction es with
    | nil => simp [txEvents]
    | cons e es ih =>
      intro m
      have := ih (fun k hk => h k (by simp [hk])) (m + 1)
      simp only [List.zipIdx_cons, List.flatMap_cons, List.length_append, this]
      match e with
      | .cs b => simp [Event.wireBytes, txEvents]
      | .dly n => simp [Event.wireBytes, txEvents]
      | .tx k .ok => simp [Event.wireBytes, txEvents, Packet.bytes]; omega
      | .tx k .fail => exact (h k (by simp)).elim
  exact key 0

/-- A member of a concatenation of pieces of one length. -/
theorem getElem_flatMap_finRange {β : Type} (n m : Nat) (f : Fin n → List β) (hf : ∀ i, (f i).length = m) (i : Fin n)
    (j : Nat) (hj : j < m) : ((List.finRange n).flatMap f)[m * i.val + j]? = (f i)[j]? := by
  have key : ∀ (L : List (Fin n)) (k : Nat) (hk : k < L.length), (L.flatMap f)[m * k + j]? = (f L[k])[j]? := by
    intro L
    induction L with
    | nil => intro k hk; simp at hk
    | cons x L ih =>
      intro k hk
      cases k with
      | zero => simp [List.getElem?_append_left, hf, hj]
      | succ k =>
        rw [List.flatMap_cons, List.getElem?_append_right (by rw [hf, Nat.mul_succ]; omega), hf,
          show m * (k + 1) + j - m = m * k + j by rw [Nat.mul_succ]; omega, ih k (by simpa using hk)]
        rfl
  simpa using key (List.finRange n) i.val (by simp)

end Sys2Proof.Machine
end

