-- ==== Sys2Proof/Laws/Sequencer.lean ====
section
/-! SUPPORT. The bodies of INIT and FLUSH: how many calls they make, their traces, their packets. -/

namespace Sys2Proof.Machine

/-! ### The words of the framebuffer -/

theorem append_high (a b : Byte) : (a ++ b).extractLsb' 8 8 = a := by
  ext i hi
  simp only [BitVec.getElem_extractLsb', BitVec.getLsbD_append]
  simp [BitVec.getLsbD_eq_getElem hi]

theorem append_low (a b : Byte) : (a ++ b).extractLsb' 0 8 = b := by
  ext i hi
  simp only [BitVec.getElem_extractLsb', BitVec.getLsbD_append]
  simp [hi]

theorem wordAt_high (fb : Memory) (r : Row) (g : Group) :
    (wordAt fb r g).extractLsb' 8 8 = memRead1 fb (leftIndex r g) := append_high _ _

theorem wordAt_low (fb : Memory) (r : Row) (g : Group) :
    (wordAt fb r g).extractLsb' 0 8 = memRead1 fb (rightIndex r g) := append_low _ _

/-- The pixels of a word (20_memory.md R31). -/
theorem wordAt_pixel (fb : Memory) (r : Row) (g : Group) (k : Fin 16) (c : Column) (h : c.val = 16 * g.val + k.val) :
    (wordAt fb r g).getLsbD (15 - k.val) = pixel fb c r := by
  unfold wordAt memRead2 pixel
  rw [BitVec.getLsbD_append]
  split
  · next hk =>
    congr 1
    · congr 1
      apply Fin.ext
      simp only [rightIndex, byteIndex]
      omega
    · simp only [bitIndex]
      omega
  · next hk =>
    congr 1
    · congr 1
      apply Fin.ext
      simp only [leftIndex, byteIndex]
      omega
    · simp only [bitIndex]
      omega

/-! ### INIT -/

theorem sends_initActs (p : Params) : sends (initActs p) = 3 := rfl
theorem delays_initActs (p : Params) : delays (initActs p) = 3 := rfl
theorem actTrace_initActs (p : Params) : actTrace (initActs p) = initTrace p := rfl
theorem actCs_initActs (p : Params) (c : Bool) : actCs (initActs p) c = false := rfl
theorem actMode_initActs (p : Params) (m : Mode) : actMode (initActs p) m = .extgfx := rfl

/-! ### FLUSH -/

/-- The port calls of FLUSH, without the chip-select bracket. -/
def flushCalls (p : Params) (fb : Memory) : List Act := (List.finRange 64).flatMap (rowActs p fb)

theorem flushActs_eq (p : Params) (fb : Memory) :
    flushActs p fb = [.select true] ++ flushCalls p fb ++ [.select false] := rfl

section
variable (p : Params) (fb : Memory) (r : Row)

theorem sends_settleIfAny (q : SeqPoint) (n : Nat) : sends (settleIfAny q n) = 0 := by
  unfold settleIfAny; split <;> rfl

theorem delays_settleIfAny (q : SeqPoint) (n : Nat) : delays (settleIfAny q n) = if 0 < n then 1 else 0 := by
  unfold settleIfAny; split <;> rfl

theorem actTrace_settleIfAny (q : SeqPoint) (n : Nat) : actTrace (settleIfAny q n) = dlyIfAny n := by
  unfold settleIfAny dlyIfAny; split <;> rfl

theorem actPackets_settleIfAny (q : SeqPoint) (n : Nat) : actPackets (settleIfAny q n) = [] := by
  unfold settleIfAny; split <;> rfl

theorem sends_wordActs (g : Group) : sends (wordActs p fb r g) = 2 := by
  simp [wordActs, sendData, sends, sends_settleIfAny]

theorem delays_wordActs (g : Group) : delays (wordActs p fb r g) = if 0 < p.tDataSettle then 1 else 0 := by
  simp [wordActs, sendData, delays, delays_settleIfAny]

theorem sends_rowActs : sends (rowActs p fb r) = 18 := by
  simp [rowActs, setAddr, sendCmd, sends, sends_settleIfAny, sends_flatMap _ _ 2 (sends_wordActs p fb r)]

theorem delays_rowActs : delays (rowActs p fb r) =
    1 + 8 * (if 0 < p.tDataSettle then 1 else 0) + if 0 < p.tRowSettle then 1 else 0 := by
  simp [rowActs, setAddr, sendCmd, delays, delays_settleIfAny, delays_flatMap _ _ _ (delays_wordActs p fb r)]
  omega

theorem actTrace_wordActs (g : Group) : actTrace (wordActs p fb r g) =
    [.tx (encodePacket p (memRead1 fb (leftIndex r g)) true false) .ok,
      .tx (encodePacket p (memRead1 fb (rightIndex r g)) true false) .ok] ++ dlyIfAny p.tDataSettle := by
  simp [wordActs, sendData, wordAt_high, wordAt_low, actTrace_settleIfAny, Act.events]

theorem actTrace_rowActs : actTrace (rowActs p fb r) = rowTrace p fb r := by
  simp only [rowActs, actTrace_append, actTrace_flatMap, actTrace_wordActs, actTrace_settleIfAny]
  rfl

theorem actPackets_rowActs : actPackets (rowActs p fb r) = rowPackets p fb r := by
  simp only [rowActs, actPackets_append, actPackets_flatMap, actPackets_settleIfAny, wordActs, wordAt_high, wordAt_low,
    List.append_nil]
  rfl

theorem isCall_rowActs : ∀ a ∈ rowActs p fb r, a.isCall = true := by
  intro a ha
  simp only [rowActs, setAddr, sendCmd, wordActs, sendData, settleIfAny, List.mem_append, List.mem_flatMap,
    List.mem_cons, List.not_mem_nil, or_false] at ha
  rcases ha with ((((rfl | rfl) | rfl) | ⟨g, -, (rfl | rfl) | ha⟩) | ha)
  all_goals first | rfl | (split at ha <;> simp at ha; subst ha; rfl)

/-- The point of a port call. -/
def Act.point : Act → Option SeqPoint
  | .select _ => none
  | .toMode _ => none
  | .send q _ => some q
  | .settle q _ => some q

theorem point_rowActs : ∀ a ∈ rowActs p fb r, ∀ q, a.point = some q → q.mode = .extgfx := by
  intro a ha q hq
  simp only [rowActs, setAddr, sendCmd, wordActs, sendData, settleIfAny, List.mem_append, List.mem_flatMap,
    List.mem_cons, List.not_mem_nil, or_false] at ha
  rcases ha with ((((rfl | rfl) | rfl) | ⟨g, -, (rfl | rfl) | ha⟩) | ha)
  all_goals first
    | (simp only [Act.point, Option.some.injEq] at hq; subst hq; rfl)
    | (split at ha <;> simp at ha; subst ha; simp only [Act.point, Option.some.injEq] at hq; subst hq; rfl)

/-- The packets of FLUSH are write packets of the codec. -/
theorem written_rowActs : ∀ q k, .send q k ∈ rowActs p fb r → k.Written p := by
  intro q k ha
  simp only [rowActs, setAddr, sendCmd, wordActs, sendData, settleIfAny, List.mem_append, List.mem_flatMap,
    List.mem_cons, List.not_mem_nil, or_false, Act.send.injEq, reduceCtorEq] at ha
  rcases ha with ((⟨-, rfl⟩ | ⟨-, rfl⟩) | ⟨g, -, (⟨-, rfl⟩ | ⟨-, rfl⟩) | ha⟩) | ha
  all_goals first | exact ⟨_, _, rfl⟩ | (split at ha <;> simp at ha)

end

section
variable (p : Params) (fb : Memory)

theorem isCall_flushCalls : ∀ a ∈ flushCalls p fb, a.isCall = true := by
  intro a ha
  obtain ⟨r, -, ha⟩ := List.mem_flatMap.1 ha
  exact isCall_rowActs p fb r a ha

theorem point_flushCalls : ∀ a ∈ flushCalls p fb, ∀ q, a.point = some q → q.mode = .extgfx := by
  intro a ha
  obtain ⟨r, -, ha⟩ := List.mem_flatMap.1 ha
  exact point_rowActs p fb r a ha

theorem written_flushCalls : ∀ q k, .send q k ∈ flushCalls p fb → k.Written p := by
  intro q k ha
  obtain ⟨r, -, ha⟩ := List.mem_flatMap.1 ha
  exact written_rowActs p fb r q k ha

theorem sends_flushActs : sends (flushActs p fb) = 1152 := by
  rw [flushActs_eq, sends_append, sends_append, flushCalls, sends_flatMap _ _ 18 (sends_rowActs p fb)]
  simp [sends]

theorem delays_flushActs : delays (flushActs p fb) = flushDelays p := by
  rw [flushActs_eq, delays_append, delays_append, flushCalls, delays_flatMap _ _ _ (delays_rowActs p fb)]
  simp only [delays, List.length_finRange, flushDelays]
  split <;> split <;> rfl

/-- The number of a packet of FLUSH. -/
theorem sends_lt_of_send {l₁ l₂ : List Act} {q : SeqPoint} {k : Packet} (h : flushActs p fb = l₁ ++ .send q k :: l₂) :
    sends l₁ < 1152 := by
  have := sends_flushActs p fb
  rw [h, sends_append] at this
  simp only [sends] at this
  omega

/-- The number of a delay of FLUSH. -/
theorem delays_lt_of_settle {l₁ l₂ : List Act} {q : SeqPoint} {n : Nat}
    (h : flushActs p fb = l₁ ++ .settle q n :: l₂) : delays l₁ < flushDelays p := by
  have := delays_flushActs p fb
  rw [h, delays_append] at this
  simp only [delays] at this
  omega

theorem actTrace_flushActs : actTrace (flushActs p fb) = flushTrace p fb := by
  simp only [flushActs, actTrace_append, actTrace_flatMap, actTrace_rowActs]
  rfl

theorem actPackets_flushActs : actPackets (flushActs p fb) = flushPackets p fb := by
  simp only [flushActs, actPackets_append, actPackets_flatMap, actPackets_rowActs]
  simp [actPackets, flushPackets]

theorem actCs_flushActs (c : Bool) : actCs (flushActs p fb) c = false := by
  simp [flushActs_eq, actCs]

theorem actMode_flushActs (m : Mode) : actMode (flushActs p fb) m = m := by
  simp [flushActs_eq, actMode, actMode_of_calls _ (isCall_flushCalls p fb)]

/-- Before a port call of FLUSH the module is selected and the mode is as at its start. -/
theorem flush_before_call (l₁ l₂ : List Act) (a : Act) (ha : a.isCall = true)
    (h : flushActs p fb = l₁ ++ a :: l₂) :
    (∀ c, actCs l₁ c = true) ∧ (∀ m, actMode l₁ m = m) ∧ a ∈ flushCalls p fb ∧
    ∃ m₁ m₂, l₁ = .select true :: m₁ ∧ flushCalls p fb = m₁ ++ a :: m₂ := by
  obtain ⟨m₁, m₂, hm, rfl⟩ := bracket_split (flushCalls p fb) l₁ l₂ a ha h
  have hc : ∀ x ∈ m₁, x.isCall = true := fun x hx => isCall_flushCalls p fb x (by rw [hm]; simp [hx])
  exact ⟨fun c => actCs_of_calls _ hc _, fun m => actMode_of_calls _ hc m, by rw [hm]; simp, m₁, m₂, rfl, hm⟩

/-! ### Where a call of FLUSH stands -/

/-- Every port call of the actions is made where its point says, `n` sends and `d` delays having been made before
them. -/
def ActsStand (n d : Nat) : List Act → Prop
  | [] => True
  | .select _ :: l => ActsStand n d l
  | .toMode _ :: l => ActsStand n d l
  | .send q k :: l => (q.packet p fb = some k ∧ q.sendsBefore = n ∧ q.delaysBefore p = d) ∧ ActsStand (n + 1) d l
  | .settle q m :: l => (q.delay p = some m ∧ q.sendsBefore = n ∧ q.delaysBefore p = d) ∧ ActsStand n (d + 1) l

theorem actsStand_append (n d : Nat) (l m : List Act) : ActsStand p fb n d (l ++ m) ↔
    ActsStand p fb n d l ∧ ActsStand p fb (n + sends l) (d + delays l) m := by
  induction l generalizing n d with
  | nil => simp [ActsStand, sends, delays]
  | cons a l ih =>
    cases a <;> simp only [List.cons_append, ActsStand, sends, delays, ih, and_assoc, Nat.add_assoc, Nat.add_comm 1]

/-- Pieces that make the same number of calls each. -/
theorem actsStand_flatMap {N : Nat} (f : Fin N → List Act) (n d a b : Nat) (hs : ∀ i, sends (f i) = a)
    (hd : ∀ i, delays (f i) = b) (h : ∀ i, ActsStand p fb (n + a * i.val) (d + b * i.val) (f i)) :
    ActsStand p fb n d ((List.finRange N).flatMap f) := by
  have key : ∀ k, k ≤ N → ActsStand p fb n d (((List.finRange N).take k).flatMap f) := by
    intro k hk
    induction k with
    | zero => exact trivial
    | succ k ih =>
      have hlt : k < (List.finRange N).length := by simpa using hk
      rw [List.take_succ_eq_append_getElem hlt, List.flatMap_append, actsStand_append]
      refine ⟨ih (by omega), ?_⟩
      rw [sends_flatMap _ _ a hs, delays_flatMap _ _ b hd]
      have hl : ((List.finRange N).take k).length = k := by simp; omega
      rw [hl, Nat.mul_comm k, Nat.mul_comm k]
      simpa using h ⟨k, by omega⟩
  have := key N (Nat.le_refl N)
  rwa [List.take_of_length_le (by simp)] at this

theorem actsStand_settleIfAny (q : SeqPoint) (m n d : Nat) (h : q.delay p = if 0 < m then some m else none)
    (hn : q.sendsBefore = n) (hd : q.delaysBefore p = d) : ActsStand p fb n d (settleIfAny q m) := by
  unfold settleIfAny
  split
  · next hm => exact ⟨⟨by rw [h, if_pos hm], hn, hd⟩, trivial⟩
  · exact trivial

theorem actsStand_rowActs (r : Row) : ActsStand p fb (18 * r.val) (rowDelays p * r.val) (rowActs p fb r) := by
  have hs := fun g => sends_wordActs p fb r g
  have hd := fun g => delays_wordActs p fb r g
  unfold rowActs
  rw [actsStand_append, actsStand_append]
  refine ⟨⟨⟨⟨rfl, rfl, rfl⟩, ⟨rfl, rfl, rfl⟩, ⟨rfl, rfl, rfl⟩, trivial⟩, ?_⟩, ?_⟩
  · refine actsStand_flatMap p fb _ _ _ 2 (wordDelays p) hs hd fun g => ?_
    unfold wordActs
    rw [actsStand_append, wordAt_high, wordAt_low]
    refine ⟨⟨⟨rfl, rfl, rfl⟩, ⟨rfl, ?_, rfl⟩, trivial⟩, actsStand_settleIfAny _ _ _ _ _ _ rfl ?_ rfl⟩
    all_goals simp only [SeqPoint.sendsBefore, setAddr, sendCmd, sendData, sends, sends_append]
    all_goals omega
  · refine actsStand_settleIfAny _ _ _ _ _ _ rfl ?_ ?_
    · simp [SeqPoint.sendsBefore, setAddr, sendCmd, sends, sends_flatMap _ _ 2 hs]
    · simp [SeqPoint.delaysBefore, setAddr, sendCmd, delays, delays_flatMap _ _ (wordDelays p) hd]
      omega

theorem actsStand_flushActs : ActsStand p fb 0 0 (flushActs p fb) := by
  rw [flushActs_eq, actsStand_append, actsStand_append]
  refine ⟨⟨trivial, ?_⟩, trivial⟩
  refine actsStand_flatMap p fb _ _ _ 18 (rowDelays p) (sends_rowActs p fb) (delays_rowActs p fb) fun r => ?_
  simpa [sends, delays] using actsStand_rowActs p fb r

/-- Where a `TxWrite` of FLUSH stands (43_sequencer.md R102). -/
theorem flush_send_point (l₁ l₂ : List Act) (q : SeqPoint) (k : Packet) (h : flushActs p fb = l₁ ++ .send q k :: l₂) :
    q.packet p fb = some k ∧ q.sendsBefore = sends l₁ ∧ q.delaysBefore p = delays l₁ := by
  have := actsStand_flushActs p fb
  rw [h, actsStand_append] at this
  simpa using this.2.1

/-- Where a `Delay` of FLUSH stands (43_sequencer.md R102, R110). -/
theorem flush_settle_point (l₁ l₂ : List Act) (q : SeqPoint) (n : Nat) (h : flushActs p fb = l₁ ++ .settle q n :: l₂) :
    q.delay p = some n ∧ q.sendsBefore = sends l₁ ∧ q.delaysBefore p = delays l₁ := by
  have := actsStand_flushActs p fb
  rw [h, actsStand_append] at this
  simpa using this.2.1

theorem mem_flushActs {r : Row} {a : Act} (h : a ∈ rowActs p fb r) : a ∈ flushActs p fb := by
  have : a ∈ flushCalls p fb := List.mem_flatMap.2 ⟨r, List.mem_finRange r, h⟩
  simp [flushActs_eq, this]

theorem mem_flushActs_word {r : Row} {g : Group} {a : Act} (h : a ∈ wordActs p fb r g) : a ∈ flushActs p fb := by
  have : a ∈ (List.finRange 8).flatMap (wordActs p fb r) := List.mem_flatMap.2 ⟨g, List.mem_finRange g, h⟩
  refine mem_flushActs p fb (r := r) ?_
  unfold rowActs
  exact List.mem_append_left _ (List.mem_append_right _ this)

/-- FLUSH makes every `TxWrite` its points name. -/
theorem exists_flush_send (q : SeqPoint) (k : Packet) (hm : q.mode = .extgfx) (h : q.packet p fb = some k) :
    ∃ l₁ l₂, flushActs p fb = l₁ ++ .send q k :: l₂ := by
  refine List.append_of_mem ?_
  cases q with
  | initSend c => cases c <;> simp [SeqPoint.mode] at hm
  | initSettle c => cases c <;> simp [SeqPoint.mode] at hm
  | addrVertical r => cases h; exact mem_flushActs p fb (r := r) (by simp [rowActs, setAddr, sendCmd])
  | addrHorizontal r => cases h; exact mem_flushActs p fb (r := r) (by simp [rowActs, setAddr, sendCmd])
  | addrSettle r => cases h
  | dataHigh r g => cases h; exact mem_flushActs_word p fb (r := r) (g := g) (by simp [wordActs, sendData, wordAt_high])
  | dataLow r g => cases h; exact mem_flushActs_word p fb (r := r) (g := g) (by simp [wordActs, sendData, wordAt_low])
  | dataSettle r g => cases h
  | rowSettle r => cases h

/-- FLUSH makes every `Delay` its points name. -/
theorem exists_flush_settle (q : SeqPoint) (n : Nat) (hm : q.mode = .extgfx) (h : q.delay p = some n) :
    ∃ l₁ l₂, flushActs p fb = l₁ ++ .settle q n :: l₂ := by
  refine List.append_of_mem ?_
  cases q with
  | initSend c => cases c <;> simp [SeqPoint.mode] at hm
  | initSettle c => cases c <;> simp [SeqPoint.mode] at hm
  | addrVertical r => cases h
  | addrHorizontal r => cases h
  | addrSettle r => cases h; exact mem_flushActs p fb (r := r) (by simp [rowActs])
  | dataHigh r g => cases h
  | dataLow r g => cases h
  | dataSettle r g =>
    simp only [SeqPoint.delay] at h
    split at h <;> cases h
    exact mem_flushActs_word p fb (r := r) (g := g) (by simp [wordActs, settleIfAny, *])
  | rowSettle r =>
    simp only [SeqPoint.delay] at h
    split at h <;> cases h
    exact mem_flushActs p fb (r := r) (by simp [rowActs, settleIfAny, *])

end

end Sys2Proof.Machine
end

