-- ==== Sys2Proof/Laws/Exec.lean ====
section
/-! SUPPORT. What each operation and each step can do, said once: the provers cite these and unfold no meaning. -/

namespace Sys2Proof.Machine

/-! ### INIT -/

/-- Where INIT can stop: at the send of command `k`, or in the settle delay after it. -/
theorem init_split (p : Params) (l₁ l₂ : List Act) (a : Act) (ha : a.isCall = true) (h : initActs p = l₁ ++ a :: l₂) :
    ∃ k : Fin 3, (∀ c, actCs l₁ c = true) ∧ actMode l₁ .uninit = (if k = 0 then .uninit else .basic) ∧
      delays l₁ = k.val ∧
      ((a = .send (.initSend (initCommands.get k)) (initPacket p (initCommands.get k)) ∧ sends l₁ = k.val ∧
          actTrace l₁ = (initTrace p).take (2 * k.val + 1)) ∨
        (a = .settle (.initSettle (initCommands.get k)) p.tInitSettle ∧ sends l₁ = k.val + 1 ∧
          actTrace l₁ ++ [.dly p.tInitSettle] = (initTrace p).take (2 * k.val + 3))) := by
  have hlen : l₁.length < 10 := by
    have := congrArg List.length h
    simp [initActs, initCommand] at this
    omega
  have h1 : l₁ = (initActs p).take l₁.length := by rw [h]; simp
  have h2 : (initActs p)[l₁.length]? = some a := by rw [h]; simp
  generalize hn : l₁.length = n at *
  rw [h1]
  clear h h1 hn l₁ l₂
  interval_cases n <;>
    simp only [initActs, initCommand, sendCmd, List.cons_append, List.nil_append, List.getElem?_cons_succ,
      List.getElem?_cons_zero, Option.some.injEq] at h2 <;>
    subst h2 <;>
    first
      | (simp [Act.isCall] at ha; done)
      | exact ⟨0, fun _ => rfl, rfl, rfl, .inl ⟨rfl, rfl, rfl⟩⟩
      | exact ⟨0, fun _ => rfl, rfl, rfl, .inr ⟨rfl, rfl, rfl⟩⟩
      | exact ⟨1, fun _ => rfl, rfl, rfl, .inl ⟨rfl, rfl, rfl⟩⟩
      | exact ⟨1, fun _ => rfl, rfl, rfl, .inr ⟨rfl, rfl, rfl⟩⟩
      | exact ⟨2, fun _ => rfl, rfl, rfl, .inl ⟨rfl, rfl, rfl⟩⟩
      | exact ⟨2, fun _ => rfl, rfl, rfl, .inr ⟨rfl, rfl, rfl⟩⟩

/-- Everything INIT can do: it is refused (43_sequencer.md R109), runs to its end (R100), fails at command `k` (R101),
or its `TxWrite` or `Delay` number `k` never returns (60_exceptions.md R119). -/
theorem execInit_cases (s : State) :
    (s.mode ≠ .uninit ∧ execInit s = .next { s with rsp := s.rsp ++ [⟨.alreadyInitialized, 0#24⟩] }) ∨
    (s.mode = .uninit ∧ s.TransportOk 3 ∧ s.DelaysReturn 3 ∧ execInit s = .next { s with
      mode := .extgfx, cs := false, rsp := s.rsp ++ [⟨.ok, 0#24⟩], tx := s.tx.after 3, dly := s.dly.after 3,
      out := s.out ++ initTrace Config.block }) ∨
    ∃ k : Fin 3, s.mode = .uninit ∧ s.DelaysReturn k.val ∧
      ((s.TransportOk k.val ∧ s.txAnswer k.val = .answered .fail ∧ execInit s = .next { s with
        mode := .uninit, cs := false, rsp := s.rsp ++ [⟨.transportError, 0#24⟩], tx := s.tx.after (k.val + 1),
        dly := s.dly.after k.val, out := s.out ++ (initTrace Config.block).take (2 * k.val + 1) ++
          [.tx (initPacket Config.block (initCommands.get k)) .fail, .cs false] }) ∨
      (s.TransportOk k.val ∧ s.txAnswer k.val = .never ∧ execInit s = .next { s with
        mode := if k = 0 then .uninit else .basic, cs := true, busy := some (.initSend (initCommands.get k)),
        tx := s.tx.after (k.val + 1), dly := s.dly.after k.val,
        out := s.out ++ (initTrace Config.block).take (2 * k.val + 1) }) ∨
      (s.TransportOk (k.val + 1) ∧ s.delayAnswer k.val = .never ∧ execInit s = .next { s with
        mode := if k = 0 then .uninit else .basic, cs := true, busy := some (.initSettle (initCommands.get k)),
        tx := s.tx.after (k.val + 1), dly := s.dly.after (k.val + 1),
        out := s.out ++ (initTrace Config.block).take (2 * k.val + 3) })) := by
  by_cases h : s.mode = .uninit
  case neg => exact .inl ⟨h, by simp only [execInit, if_neg h]; rfl⟩
  right
  rcases runActs_cases (initActs Config.block) s with ⟨hok, hr⟩ | ⟨l₁, q, p, l₂, hl, hok, hf, hr⟩ |
    ⟨l₁, q, p, l₂, hl, hok, hf, hr⟩ | ⟨l₁, q, n, l₂, hl, hok, hf, hr⟩
  · refine .inl ⟨h, hok.1, hok.2, ?_⟩
    simp only [execInit, if_pos h, hr]
    rfl
  all_goals
    right
    obtain ⟨k, hc, hm, hd, ha | ha⟩ := init_split Config.block l₁ l₂ _ rfl hl <;>
      obtain ⟨ha, hs, ht⟩ := ha <;> simp only [reduceCtorEq, Act.send.injEq, Act.settle.injEq] at ha
    obtain ⟨rfl, rfl⟩ := ha
    refine ⟨k, h, by rw [← hd]; exact hok.2, ?_⟩
    have ho : ∀ j, j < k.val → s.txAnswer j = .answered .ok := fun j hj => hok.1 j (by omega)
  · rw [hs] at hf hr
    refine .inl ⟨ho, hf, ?_⟩
    simp only [execInit, if_pos h, hr, concludeInit]
    simp [State.afterActs, State.csSet, State.setMode, State.raise, State.respond, ht, hd]
  · rw [hs] at hf hr
    refine .inr (.inl ⟨ho, hf, ?_⟩)
    simp only [execInit, if_pos h, hr, concludeInit]
    simp [State.afterActs, ht, hd, hs, hc, h, hm]
  · rw [hd] at hf hr
    refine .inr (.inr ⟨fun j hj => hok.1 j (by omega), hf, ?_⟩)
    simp only [execInit, if_pos h, hr, concludeInit]
    simp [State.afterActs, ← ht, hd, hs, hc, h, hm]

/-! ### FLUSH -/

/-- Everything FLUSH can do: it is refused (43_sequencer.md R109), runs to its end (R102), fails at a packet (R104), or
one of its `TxWrite` or `Delay` calls never returns (60_exceptions.md R119). -/
theorem execFlush_cases (s : State) :
    (s.mode ≠ .extgfx ∧ execFlush s = .next { s with rsp := s.rsp ++ [⟨.notInitialized, 0#24⟩] }) ∨
    (s.mode = .extgfx ∧ s.TransportOk 1152 ∧ s.DelaysReturn (flushDelays Config.block) ∧ execFlush s = .next { s with
      cs := false, rsp := s.rsp ++ [⟨.ok, 0#24⟩], tx := s.tx.after 1152,
      dly := s.dly.after (flushDelays Config.block), out := s.out ++ flushTrace Config.block s.fb }) ∨
    (∃ l₁ q p l₂, s.mode = .extgfx ∧ flushActs Config.block s.fb = l₁ ++ .send q p :: l₂ ∧ s.ActsAnswered l₁ ∧
      s.txAnswer (sends l₁) = .answered .fail ∧ execFlush s = .next { s with
        cs := false, rsp := s.rsp ++ [⟨.transportError, 0#24⟩], tx := s.tx.after (sends l₁ + 1),
        dly := s.dly.after (delays l₁), out := s.out ++ actTrace l₁ ++ [.tx p .fail, .cs false] }) ∨
    (∃ l₁ q p l₂, s.mode = .extgfx ∧ flushActs Config.block s.fb = l₁ ++ .send q p :: l₂ ∧ s.ActsAnswered l₁ ∧
      s.txAnswer (sends l₁) = .never ∧ q.mode = .extgfx ∧ execFlush s = .next { s with
        cs := true, busy := some q, tx := s.tx.after (sends l₁ + 1), dly := s.dly.after (delays l₁),
        out := s.out ++ actTrace l₁ }) ∨
    (∃ l₁ q n l₂, s.mode = .extgfx ∧ flushActs Config.block s.fb = l₁ ++ .settle q n :: l₂ ∧ s.ActsAnswered l₁ ∧
      s.delayAnswer (delays l₁) = .never ∧ q.mode = .extgfx ∧ execFlush s = .next { s with
        cs := true, busy := some q, tx := s.tx.after (sends l₁), dly := s.dly.after (delays l₁ + 1),
        out := s.out ++ actTrace l₁ ++ [.dly n] }) := by
  by_cases h : s.mode = .extgfx
  case neg => exact .inl ⟨h, by simp only [execFlush, if_neg h]; rfl⟩
  right
  rcases runActs_cases (flushActs Config.block s.fb) s with ⟨hok, hr⟩ | ⟨l₁, q, p, l₂, hl, hok, hf, hr⟩ |
    ⟨l₁, q, p, l₂, hl, hok, hf, hr⟩ | ⟨l₁, q, n, l₂, hl, hok, hf, hr⟩
  · rw [State.ActsAnswered, sends_flushActs, delays_flushActs] at hok
    refine .inl ⟨h, hok.1, hok.2, ?_⟩
    simp only [execFlush, if_pos h, hr, concludeFlush, State.answer, State.respond, State.afterActs, actMode_flushActs,
      actCs_flushActs, actTrace_flushActs, sends_flushActs, delays_flushActs]
  all_goals
    right
    obtain ⟨hc, hm, hmem, -⟩ := flush_before_call Config.block s.fb l₁ l₂ _ rfl hl
  · refine .inl ⟨l₁, q, p, l₂, h, hl, hok, hf, ?_⟩
    simp only [execFlush, if_pos h, hr, concludeFlush]
    simp [State.afterActs, State.csSet, State.raise, State.respond, hm]
  · refine .inr (.inl ⟨l₁, q, p, l₂, h, hl, hok, hf, point_flushCalls Config.block s.fb _ hmem q rfl, ?_⟩)
    simp only [execFlush, if_pos h, hr, concludeFlush]
    simp [State.afterActs, hm, hc]
  · refine .inr (.inr ⟨l₁, q, n, l₂, h, hl, hok, hf, point_flushCalls Config.block s.fb _ hmem q rfl, ?_⟩)
    simp only [execFlush, if_pos h, hr, concludeFlush]
    simp [State.afterActs, hm, hc]

/-! ### The other operations -/

/-- An operation outside the sequencer changes FB at most, and answers (10_state.md R27). -/
theorem exec_of_not_sequencer (i : Instr) (s : State) (h : isSequencer i = false) :
    ∃ fb r, exec i s = .next { s with fb := fb, rsp := s.rsp ++ [r] } ∧ (r.status ≠ .ok → r.data = 0#24 ∧ fb = s.fb) ∧
      (s.fb.wf → fb.wf) ∧ (writesFb i = false → fb = s.fb) ∧ r.status ≠ .transportError := by
  cases i with
  | setPixel x y =>
    simp only [exec, execSetPixel]
    cases pixelAt x y with
    | none => exact ⟨s.fb, ⟨.ok, 0#24⟩, rfl, by simp, id, fun _ => rfl, by simp⟩
    | some c => exact ⟨_, ⟨.ok, 0#24⟩, rfl, by simp, wf_fbSetPixel _ _ _, by simp [writesFb], by simp⟩
  | clearPixel x y =>
    simp only [exec, execClearPixel]
    cases pixelAt x y with
    | none => exact ⟨s.fb, ⟨.ok, 0#24⟩, rfl, by simp, id, fun _ => rfl, by simp⟩
    | some c => exact ⟨_, ⟨.ok, 0#24⟩, rfl, by simp, wf_fbClearPixel _ _ _, by simp [writesFb], by simp⟩
  | getPixel x y =>
    simp only [exec, execGetPixel]
    cases pixelAt x y with
    | none => exact ⟨s.fb, ⟨.ok, _⟩, rfl, by simp, id, fun _ => rfl, by simp⟩
    | some c => exact ⟨s.fb, ⟨.ok, _⟩, rfl, by simp, id, fun _ => rfl, by simp⟩
  | clearAll => exact ⟨Memory.cleared, ⟨.ok, 0#24⟩, rfl, by simp, fun _ => Memory.wf_cleared, by simp [writesFb], by simp⟩
  | rawRead n =>
    simp only [exec, execRawRead]
    cases byteAt n with
    | none => exact ⟨s.fb, ⟨.preconditionViolation, 0#24⟩, rfl, by simp, id, fun _ => rfl, by simp⟩
    | some k => exact ⟨s.fb, ⟨.ok, _⟩, rfl, by simp, id, fun _ => rfl, by simp⟩
  | encode v rs rw => exact ⟨s.fb, ⟨.ok, _⟩, rfl, by simp, id, fun _ => rfl, by simp⟩
  | xlate r g =>
    simp only [exec, execXlate]
    cases wordPosition r g with
    | none => exact ⟨s.fb, ⟨.preconditionViolation, 0#24⟩, rfl, by simp, id, fun _ => rfl, by simp⟩
    | some k => exact ⟨s.fb, ⟨.ok, _⟩, rfl, by simp, id, fun _ => rfl, by simp⟩
  | init => simp [isSequencer] at h
  | flush => simp [isSequencer] at h

/-- Every operation answers a next state. -/
theorem exec_next (i : Instr) (s : State) : ∃ t, exec i s = .next t := by
  cases i <;> exact ⟨_, rfl⟩

/-! ### The step -/

/-- Everything a step that goes on can do. -/
theorem step_cases {s t : State} (h : step s = .next t) :
    (∃ rest, s.host = .reset :: rest ∧ t = { State.reset with host := rest, tx := s.tx, dly := s.dly }) ∨
    (s.busy = none ∧ s.host = [] ∧ t = s) ∨
    (∃ w rest i, s.busy = none ∧ s.host = .command w :: rest ∧ decode w = .ok i ∧
      exec i { s with host := rest } = .next t) ∨
    (∃ w rest r, s.busy = none ∧ s.host = .command w :: rest ∧ decode w = .error r ∧
      t = { s with host := rest, rsp := s.rsp ++ [⟨.illegalOp, 0#24⟩] }) := by
  unfold step at h
  split at h
  · next rest hh =>
    simp only [Host.Outcome.next.injEq] at h
    exact .inl ⟨rest, hh, h.symm⟩
  · simp at h
  · next hb hh =>
    simp only [Host.Outcome.next.injEq] at h
    exact .inr (.inl ⟨hb, hh, h.symm⟩)
  · next w rest hb hh =>
    split at h
    · next i hd => exact .inr (.inr (.inl ⟨w, rest, i, hb, hh, hd, h⟩))
    · next r hd =>
      simp only [Host.Outcome.next.injEq] at h
      exact .inr (.inr (.inr ⟨w, rest, r, hb, hh, hd, h.symm⟩))

end Sys2Proof.Machine
end

