-- ==== Sys2Proof/Laws/Context.lean ====
section
/-! SUPPORT. What an operation never reads: the host's further moves, the trace, the responses (10_state.md R15, R23).
Said once, for every operation. -/

namespace Sys2Proof.Machine

/-- `s` with other moves of the host to come, another trace, other responses. -/
def State.inContext (s : State) (host : List HostMove) (out : List Event) (rsp : List Response) : State :=
  { s with host := host, out := out, rsp := rsp }

/-- The actions of the sequencer never read the host's moves, the trace or the responses. -/
theorem runActs_context (l : List Act) (s : State) :
    ∃ events, (runActs l s).2.out = s.out ++ events ∧ ∀ host out rsp,
      runActs l (s.inContext host out rsp) =
        ((runActs l s).1, (runActs l s).2.inContext host (out ++ events) rsp) := by
  induction l generalizing s with
  | nil => exact ⟨[], by simp [runActs], fun host out rsp => by simp [runActs, State.inContext]⟩
  | cons a l ih =>
    cases a with
    | select b =>
      obtain ⟨ev, h1, h2⟩ := ih (s.csSet b)
      refine ⟨.cs b :: ev, by simpa [runActs] using h1, fun host out rsp => ?_⟩
      have := h2 host (out ++ [.cs b]) rsp
      simpa [runActs, State.inContext, State.csSet] using this
    | toMode m =>
      obtain ⟨ev, h1, h2⟩ := ih (s.setMode m)
      exact ⟨ev, h1, fun host out rsp => h2 host out rsp⟩
    | send q p =>
      unfold runActs txWrite
      simp only [State.inContext]
      split
      · next h =>
        split at h
        · next f hf =>
          cases h
          simp only [State.emit]
          obtain ⟨ev, h1, h2⟩ := ih { s with tx := f, out := s.out ++ [.tx p .ok] }
          refine ⟨.tx p .ok :: ev, by simpa using h1, fun host out rsp => ?_⟩
          have := h2 host (out ++ [.tx p .ok]) rsp
          simpa [State.inContext] using this
        · cases h
      · next h =>
        split at h
        · cases h
          exact ⟨[.tx p .fail], rfl, fun host out rsp => rfl⟩
        · cases h
      · next h =>
        split at h
        · cases h
        · cases h
          exact ⟨[], by simp [State.setBusy], fun host out rsp => by simp [State.setBusy]⟩
    | settle q n =>
      have hc : ∀ host out rsp, (s.inContext host out rsp).delayAnswer 0 = s.delayAnswer 0 := fun _ _ _ => rfl
      unfold runActs
      simp only [delay_eq, hc]
      cases s.delayAnswer 0 with
      | returned =>
        obtain ⟨ev, h1, h2⟩ := ih { s with dly := s.dly.after 1, out := s.out ++ [.dly n] }
        refine ⟨.dly n :: ev, by simpa using h1, fun host out rsp => ?_⟩
        have := h2 host (out ++ [.dly n]) rsp
        simpa [State.inContext] using this
      | never => exact ⟨[.dly n], rfl, fun host out rsp => rfl⟩

/-- Before a conclusion: the response it adds, its last event. -/
theorem concludeInit_context (e : Ending × State) : ∃ events new,
    (concludeInit e).out = e.2.out ++ events ∧ (concludeInit e).rsp = e.2.rsp ++ new ∧ ∀ host out rsp,
      concludeInit (e.1, e.2.inContext host out rsp) =
        (concludeInit e).inContext host (out ++ events) (rsp ++ new) := by
  obtain ⟨e, t⟩ := e
  cases e with
  | done => exact ⟨[], [⟨.ok, 0#24⟩], by simp [concludeInit], rfl, fun host out rsp => by
      simp [concludeInit, State.inContext, State.answer, State.respond]⟩
  | failed => exact ⟨[.cs false], [⟨.transportError, 0#24⟩], rfl, rfl, fun host out rsp => rfl⟩
  | stalled => exact ⟨[], [], by simp [concludeInit], by simp [concludeInit], fun host out rsp => by
      simp [concludeInit, State.inContext]⟩

theorem concludeFlush_context (e : Ending × State) : ∃ events new,
    (concludeFlush e).out = e.2.out ++ events ∧ (concludeFlush e).rsp = e.2.rsp ++ new ∧ ∀ host out rsp,
      concludeFlush (e.1, e.2.inContext host out rsp) =
        (concludeFlush e).inContext host (out ++ events) (rsp ++ new) := by
  obtain ⟨e, t⟩ := e
  cases e with
  | done => exact ⟨[], [⟨.ok, 0#24⟩], by simp [concludeFlush], rfl, fun host out rsp => by
      simp [concludeFlush, State.inContext, State.answer, State.respond]⟩
  | failed => exact ⟨[.cs false], [⟨.transportError, 0#24⟩], rfl, rfl, fun host out rsp => rfl⟩
  | stalled => exact ⟨[], [], by simp [concludeFlush], by simp [concludeFlush], fun host out rsp => by
      simp [concludeFlush, State.inContext]⟩

/-- No operation reads the host's moves, the trace or the responses; it leaves the first alone and adds to the two
others. -/
theorem exec_context (i : Instr) (s : State) :
    ∃ t events new, exec i s = .next t ∧ t.host = s.host ∧ t.out = s.out ++ events ∧ t.rsp = s.rsp ++ new ∧
      ∀ host out rsp, exec i (s.inContext host out rsp) =
        .next (t.inContext host (out ++ events) (rsp ++ new)) := by
  cases i with
  | setPixel x y =>
    simp only [exec, execSetPixel]
    exact ⟨_, [], [⟨.ok, 0#24⟩], rfl, by split <;> rfl, by split <;> simp, by split <;> rfl, fun host out rsp => by
      split <;> simp [State.inContext, State.setFb, State.answer, State.respond]⟩
  | clearPixel x y =>
    simp only [exec, execClearPixel]
    exact ⟨_, [], [⟨.ok, 0#24⟩], rfl, by split <;> rfl, by split <;> simp, by split <;> rfl, fun host out rsp => by
      split <;> simp [State.inContext, State.setFb, State.answer, State.respond]⟩
  | getPixel x y =>
    simp only [exec, execGetPixel]
    cases pixelAt x y with
    | none => exact ⟨_, [], [⟨.ok, _⟩], rfl, rfl, by simp, rfl, fun host out rsp => by
        simp [State.inContext, State.answer, State.respond]⟩
    | some c => exact ⟨_, [], [⟨.ok, _⟩], rfl, rfl, by simp, rfl, fun host out rsp => by
        simp [State.inContext, State.answer, State.respond]⟩
  | clearAll => exact ⟨_, [], [⟨.ok, 0#24⟩], rfl, rfl, by simp, rfl, fun host out rsp => by
      simp [exec, execClearAll, State.inContext, State.setFb, State.answer, State.respond]⟩
  | rawRead n =>
    simp only [exec, execRawRead]
    cases byteAt n with
    | none => exact ⟨_, [], [⟨.preconditionViolation, _⟩], rfl, rfl, by simp, rfl, fun host out rsp => by
        simp [State.inContext, State.raise, State.respond]⟩
    | some c => exact ⟨_, [], [⟨.ok, _⟩], rfl, rfl, by simp, rfl, fun host out rsp => by
        simp [State.inContext, State.answer, State.respond]⟩
  | encode v rs rw => exact ⟨_, [], [⟨.ok, _⟩], rfl, rfl, by simp, rfl, fun host out rsp => by
      simp [exec, execEncode, State.inContext, State.answer, State.respond]⟩
  | xlate r g =>
    simp only [exec, execXlate]
    cases wordPosition r g with
    | none => exact ⟨_, [], [⟨.preconditionViolation, _⟩], rfl, rfl, by simp, rfl, fun host out rsp => by
        simp [State.inContext, State.raise, State.respond]⟩
    | some c => exact ⟨_, [], [⟨.ok, _⟩], rfl, rfl, by simp, rfl, fun host out rsp => by
        simp [State.inContext, State.answer, State.respond]⟩
  | init =>
    simp only [exec, execInit]
    by_cases hm : s.mode = .uninit
    · obtain ⟨ev, h1, h2⟩ := runActs_context (initActs Config.block) s
      obtain ⟨ev', new, h3, h4, h5⟩ := concludeInit_context (runActs (initActs Config.block) s)
      have hf := runActs_frame (initActs Config.block) s
      refine ⟨_, ev ++ ev', new, rfl, ?_, ?_, ?_, fun host out rsp => ?_⟩
      · rw [if_pos hm, ← hf.2.2]
        rcases runActs (initActs Config.block) s with ⟨_ | _ | _, t⟩ <;> rfl
      · rw [if_pos hm, h3, h1, List.append_assoc]
      · rw [if_pos hm, h4, hf.2.1]
      · rw [if_pos hm, if_pos (show (s.inContext host out rsp).mode = .uninit from hm), h2, h5, List.append_assoc]
    · simp only [if_neg hm]
      refine ⟨_, [], [⟨.alreadyInitialized, 0#24⟩], rfl, rfl, by simp, rfl, fun host out rsp => ?_⟩
      rw [if_neg (show (s.inContext host out rsp).mode ≠ .uninit from hm)]
      simp [State.inContext, State.raise, State.respond]
  | flush =>
    simp only [exec, execFlush]
    by_cases hm : s.mode = .extgfx
    · obtain ⟨ev, h1, h2⟩ := runActs_context (flushActs Config.block s.fb) s
      obtain ⟨ev', new, h3, h4, h5⟩ := concludeFlush_context (runActs (flushActs Config.block s.fb) s)
      have hf := runActs_frame (flushActs Config.block s.fb) s
      refine ⟨_, ev ++ ev', new, rfl, ?_, ?_, ?_, fun host out rsp => ?_⟩
      · rw [if_pos hm, ← hf.2.2]
        rcases runActs (flushActs Config.block s.fb) s with ⟨_ | _ | _, t⟩ <;> rfl
      · rw [if_pos hm, h3, h1, List.append_assoc]
      · rw [if_pos hm, h4, hf.2.1]
      · rw [if_pos hm, if_pos (show (s.inContext host out rsp).mode = .extgfx from hm),
          show (s.inContext host out rsp).fb = s.fb from rfl, h2, h5, List.append_assoc]
    · simp only [if_neg hm]
      refine ⟨_, [], [⟨.notInitialized, 0#24⟩], rfl, rfl, by simp, rfl, fun host out rsp => ?_⟩
      rw [if_neg (show (s.inContext host out rsp).mode ≠ .extgfx from hm)]
      simp [State.inContext, State.raise, State.respond]

end Sys2Proof.Machine
end

