-- ==== Sys2Proof/Laws/Observer.lean ====
section
/-! SUPPORT. What the observer of the far end sees of an INIT and of a FLUSH, whole or cut short. -/

namespace Sys2Proof.Machine

/-! ### Runs of the observer -/

/-- The observer after the trace of answered actions. -/
def FarEnd.run (o : FarEnd) (es : List Event) : FarEnd := es.foldl (FarEnd.step Config.block) o

@[simp] theorem FarEnd.run_nil (o : FarEnd) : o.run [] = o := rfl

@[simp] theorem FarEnd.run_cons (o : FarEnd) (e : Event) (es : List Event) :
    o.run (e :: es) = (FarEnd.step Config.block o e).run es := rfl

@[simp] theorem FarEnd.run_append (o : FarEnd) (es fs : List Event) : o.run (es ++ fs) = (o.run es).run fs := by
  simp [FarEnd.run]

theorem run_dlyIfAny (o : FarEnd) (n : Nat) : o.run (dlyIfAny n) = o := by
  unfold dlyIfAny; split <;> rfl

/-- An answered packet of the codec is received as the command or the data byte it carries. -/
theorem step_tx_ok (o : FarEnd) (v : Byte) (rs : Bool) :
    FarEnd.step Config.block o (.tx (encodePacket Config.block v rs false) .ok) =
      if rs then o.data v else o.command Config.block v := by
  unfold FarEnd.step FarEnd.received
  simp only [decodePacket_block]
  cases rs <;> rfl

/-- A failed packet of the codec, in extended mode, spoils the address register and the word being written. -/
theorem step_tx_fail (o : FarEnd) (v : Byte) (rs : Bool) (h : o.link = .extended) :
    FarEnd.step Config.block o (.tx (encodePacket Config.block v rs false) .fail) = o.spoil rs := by
  unfold FarEnd.step FarEnd.cutShort
  simp only [decodePacket_block, h]

/-- A failed packet outside extended mode leaves nothing known (43_sequencer.md R101). -/
theorem step_tx_fail_unknown (o : FarEnd) (k : Packet) (h : o.link ≠ .extended) :
    FarEnd.step Config.block o (.tx k .fail) = .unknown := by
  obtain ⟨l, hf, av, ah, gd, fl⟩ := o
  unfold FarEnd.step FarEnd.cutShort
  cases l with
  | expects c => rfl
  | extended => exact absurd rfl h

theorem spoil_link (o : FarEnd) (b : Bool) : (o.spoil b).link = o.link ∧ (o.spoil b).half = .nothing := by
  unfold FarEnd.spoil
  split <;> exact ⟨rfl, rfl⟩

/-! ### The address bytes -/

theorem verticalByte_fields (v : Vertical) : verticalByte Config.block v &&& 0xE0#8 = Config.block.cmdSetGaddr ∧
    BitVec.toFin ((verticalByte Config.block v).extractLsb' 0 5) = v := by
  revert v; decide

theorem horizontalByte_fields (h : Horizontal) :
    horizontalByte Config.block h &&& 0xF0#8 = Config.block.cmdSetGaddr ∧
    BitVec.toFin ((horizontalByte Config.block h).extractLsb' 0 4) = h := by
  revert h; decide

/-- The first packet of an address-set. -/
theorem command_vertical (o : FarEnd) (v : Vertical) (hl : o.link = .extended) (hh : o.half = .nothing) :
    o.command Config.block (verticalByte Config.block v) = { o with half := .vertical v } := by
  obtain ⟨h1, h2⟩ := verticalByte_fields v
  unfold FarEnd.command
  simp only [hl, hh, if_pos h1, h2]

/-- The second packet of an address-set. -/
theorem command_horizontal (o : FarEnd) (v : Vertical) (h : Horizontal) (hl : o.link = .extended)
    (hh : o.half = .vertical v) :
    o.command Config.block (horizontalByte Config.block h) =
      { o with half := .nothing, av := some v, ah := some h } := by
  obtain ⟨h1, h2⟩ := horizontalByte_fields h
  unfold FarEnd.command
  simp only [hl, hh, if_pos h1, h2]

/-! ### INIT -/

/-- After the three commands of INIT the controller is in extended graphics mode, at rest (20_memory.md R49). -/
theorem run_initTrace (o : FarEnd) (h : o.link = .expects .funcBasic) :
    (o.run (initTrace Config.block)).link = .extended ∧ (o.run (initTrace Config.block)).half = o.half := by
  obtain ⟨l, hf, av, ah, gd, fl⟩ := o
  simp only at h
  subst h
  constructor <;> rfl

/-- Before the last command of INIT is answered the controller is not in extended mode. -/
theorem run_initTrace_take (o : FarEnd) (h : o.link = .expects .funcBasic) (k : Fin 3) :
    (o.run ((initTrace Config.block).take (2 * k.val + 1))).link ≠ .extended := by
  obtain ⟨l, hf, av, ah, gd, fl⟩ := o
  simp only at h
  subst h
  match k with
  | 0 => exact Link.noConfusion
  | 1 => exact Link.noConfusion
  | 2 => exact Link.noConfusion

/-! ### One row of FLUSH -/

/-- The observer `o` is in row `r` of `fb`, its first `n` words written, having started the row as `start`. -/
structure FarEnd.InRow (fb : Memory) (start : FarEnd) (r : Row) (n : Nat) (o : FarEnd) : Prop where
  link : o.link = .extended
  half : o.half = .nothing
  av : o.av = some (xlate r 0).1
  ah : ∀ g : Group, g.val = n → o.ah = some (xlate r g).2
  gd : ∀ r' g', o.gd (xlate r' g').1 (xlate r' g').2 =
    if r' = r ∧ g'.val < n then some (wordAt fb r g') else start.gd (xlate r' g').1 (xlate r' g').2
  flushed : o.flushed = start.flushed

/-- The address-set of a row. -/
theorem run_setAddr (fb : Memory) (o : FarEnd) (r : Row) (hl : o.link = .extended) (hh : o.half = .nothing) :
    FarEnd.InRow fb o r 0 (o.run (actTrace (setAddr Config.block r (xlate r 0)))) := by
  have e : o.run (actTrace (setAddr Config.block r (xlate r 0))) =
      { o with half := .nothing, av := some (xlate r 0).1, ah := some (xlate r 0).2 } := by
    simp only [setAddr, sendCmd, actTrace_cons, actTrace_nil, Act.events, List.cons_append, List.nil_append,
      FarEnd.run_cons, FarEnd.run_nil, step_tx_ok, Bool.false_eq_true, if_false]
    rw [command_vertical o _ hl hh, command_horizontal { o with half := .vertical (xlate r 0).1 } (xlate r 0).1 _ hl rfl]
  rw [e]
  refine ⟨hl, rfl, rfl, fun g hg => ?_, fun r' g' => by simp, rfl⟩
  rw [show g = 0 from Fin.ext hg]

/-- The first byte of a word. -/
theorem step_high (fb : Memory) (o start : FarEnd) (r : Row) (n : Nat) (h : FarEnd.InRow fb start r n o) (b : Byte) :
    FarEnd.step Config.block o (.tx (encodePacket Config.block b true false) .ok) = { o with half := .left b } := by
  rw [step_tx_ok]
  simp only [if_true, FarEnd.data, h.link, h.half]

/-- One word of a row. -/
theorem run_wordActs (fb : Memory) (start o : FarEnd) (r : Row) (g : Group) (h : FarEnd.InRow fb start r g.val o) :
    FarEnd.InRow fb start r (g.val + 1) (o.run (actTrace (wordActs Config.block fb r g))) := by
  have ha := h.ah g rfl
  have hv := (xlate_row r g).1
  have e : o.run (actTrace (wordActs Config.block fb r g)) =
      { o with
        ah := Horizontal.advance (xlate r g).2
        gd := o.poke (xlate r 0).1 (xlate r g).2 (some (wordAt fb r g)) } := by
    rw [actTrace_wordActs, FarEnd.run_append, run_dlyIfAny, FarEnd.run_cons, FarEnd.run_cons, FarEnd.run_nil,
      step_high fb o start r _ h, step_tx_ok]
    simp only [if_true, FarEnd.data, h.link, FarEnd.writeWord, h.av, ha]
    congr 1
    exact h.half.symm
  rw [e]
  refine ⟨h.link, h.half, h.av, fun g' hg' => ?_, fun r' g' => ?_, h.flushed⟩
  · have h1 := (xlate_row r g).2
    have h2 := (xlate_row r g').2
    simp only [Horizontal.advance]
    have := (xlate r g').2.isLt
    rw [dif_pos (by omega)]
    congr 1
    apply Fin.ext
    simp only
    omega
  · simp only [FarEnd.poke, ← hv]
    by_cases hx : r' = r ∧ g' = g
    · obtain ⟨rfl, rfl⟩ := hx
      simp
    · have : ¬((xlate r' g').1 = (xlate r g).1 ∧ (xlate r' g').2 = (xlate r g).2) := fun hc =>
        hx (xlate_injective (Prod.ext hc.1 hc.2))
      rw [if_neg this, h.gd r' g']
      by_cases hr : r' = r
      · subst hr
        have : g' ≠ g := fun hg => hx ⟨rfl, hg⟩
        have : g'.val ≠ g.val := fun hg => this (Fin.ext hg)
        have : g'.val < g.val ↔ g'.val < g.val + 1 := by omega
        simp [this]
      · simp [hr]

/-- The first `n` words of a row. -/
theorem run_words (fb : Memory) (start o : FarEnd) (r : Row) (h : FarEnd.InRow fb start r 0 o) (n : Nat) (hn : n ≤ 8) :
    FarEnd.InRow fb start r n (o.run (actTrace (((List.finRange 8).take n).flatMap (wordActs Config.block fb r)))) := by
  induction n with
  | zero => simpa using h
  | succ n ih =>
    have hlt : n < (List.finRange 8).length := by simp; omega
    rw [List.take_succ_eq_append_getElem hlt, List.flatMap_append, actTrace_append, FarEnd.run_append]
    have := run_wordActs fb start _ r ((List.finRange 8)[n]) (by simpa using ih (by omega))
    simpa using this

/-- A whole row: the controller is at rest, the row's words hold the new image, all others the old
(20_memory.md R47). -/
theorem run_rowActs (fb : Memory) (o : FarEnd) (r : Row) (hl : o.link = .extended) (hh : o.half = .nothing) :
    (o.run (actTrace (rowActs Config.block fb r))).link = .extended ∧
    (o.run (actTrace (rowActs Config.block fb r))).half = .nothing ∧
    (o.run (actTrace (rowActs Config.block fb r))).flushed = o.flushed ∧
    ∀ r' g', (o.run (actTrace (rowActs Config.block fb r))).gd (xlate r' g').1 (xlate r' g').2 =
      if r' = r then some (wordAt fb r g') else o.gd (xlate r' g').1 (xlate r' g').2 := by
  have ha := run_setAddr fb o r hl hh
  have h := run_words fb o _ r ha 8 (Nat.le_refl _)
  rw [List.take_of_length_le (by simp)] at h
  have e : o.run (actTrace (rowActs Config.block fb r)) =
      (o.run (actTrace (setAddr Config.block r (xlate r 0)))).run
        (actTrace ((List.finRange 8).flatMap (wordActs Config.block fb r))) := by
    simp only [rowActs, actTrace_append, FarEnd.run_append, actTrace_settleIfAny, run_dlyIfAny]
    rfl
  rw [e]
  refine ⟨h.link, h.half, h.flushed, fun r' g' => ?_⟩
  rw [h.gd r' g']
  simp [g'.isLt]

/-! ### All rows -/

/-- The first `n` rows of a FLUSH (43_sequencer.md R112). -/
theorem run_rows (fb : Memory) (o : FarEnd) (hl : o.link = .extended) (hh : o.half = .nothing) (n : Nat) (hn : n ≤ 64) :
    (o.run (actTrace (((List.finRange 64).take n).flatMap (rowActs Config.block fb)))).link = .extended ∧
    (o.run (actTrace (((List.finRange 64).take n).flatMap (rowActs Config.block fb)))).half = .nothing ∧
    (o.run (actTrace (((List.finRange 64).take n).flatMap (rowActs Config.block fb)))).flushed = o.flushed ∧
    ∀ r' g', (o.run (actTrace (((List.finRange 64).take n).flatMap (rowActs Config.block fb)))).gd
        (xlate r' g').1 (xlate r' g').2 =
      if r'.val < n then some (wordAt fb r' g') else o.gd (xlate r' g').1 (xlate r' g').2 := by
  induction n with
  | zero => simpa using ⟨hl, hh⟩
  | succ n ih =>
    obtain ⟨h1, h2, hf, h3⟩ := ih (by omega)
    have hlt : n < (List.finRange 64).length := by simp; omega
    rw [List.take_succ_eq_append_getElem hlt, List.flatMap_append, actTrace_append, FarEnd.run_append]
    generalize o.run (actTrace (((List.finRange 64).take n).flatMap (rowActs Config.block fb))) = o' at *
    have hr := run_rowActs fb o' ((List.finRange 64)[n]) h1 h2
    simp only [List.flatMap_cons, List.flatMap_nil, List.append_nil]
    refine ⟨hr.1, hr.2.1, hr.2.2.1.trans hf, fun r' g' => ?_⟩
    rw [hr.2.2.2 r' g', h3 r' g']
    by_cases he : r' = (List.finRange 64)[n]
    · have : r'.val = n := by rw [he]; simp
      rw [if_pos he, if_pos (by omega), ← he]
    · have : r'.val ≠ n := fun hc => he (Fin.ext (by simpa using hc))
      rw [if_neg he]
      by_cases hlt : r'.val < n
      · rw [if_pos hlt, if_pos (by omega)]
      · rw [if_neg hlt, if_neg (by omega)]

theorem flushTrace_calls (fb : Memory) :
    flushTrace Config.block fb = [.cs true] ++ actTrace (flushCalls Config.block fb) ++ [.cs false] := by
  rw [← actTrace_flushActs, flushActs_eq]
  simp [Act.events]

/-- All the calls of a FLUSH: every word at its address (43_sequencer.md R112). -/
theorem run_flushCalls (fb : Memory) (o : FarEnd) (hl : o.link = .extended) (hh : o.half = .nothing) :
    (o.run (actTrace (flushCalls Config.block fb))).link = .extended ∧
    (o.run (actTrace (flushCalls Config.block fb))).half = .nothing ∧
    ∀ r g, (o.run (actTrace (flushCalls Config.block fb))).gd (xlate r g).1 (xlate r g).2 =
      some (wordAt fb r g) := by
  have h := run_rows fb o hl hh 64 (Nat.le_refl _)
  rw [List.take_of_length_le (by simp)] at h
  exact ⟨h.1, h.2.1, fun r g => by rw [flushCalls, h.2.2.2 r g, if_pos r.isLt]⟩

/-- The panel pixel is the bit of the word at its translated address (20_memory.md R48). -/
theorem panel_eq (o : FarEnd) (x : Column) (y : Row) :
    o.panel x y = (o.gd (xlate y ⟨x.val / 16, by omega⟩).1 (xlate y ⟨x.val / 16, by omega⟩).2).map
      (·.getLsbD (15 - x.val % 16)) := by
  unfold FarEnd.panel xlate
  split <;> rfl

/-- The pixel of a word at a column (20_memory.md R31). -/
theorem wordAt_column (fb : Memory) (x : Column) (y : Row) :
    (wordAt fb y ⟨x.val / 16, by omega⟩).getLsbD (15 - x.val % 16) = pixel fb x y :=
  wordAt_pixel fb y ⟨x.val / 16, by omega⟩ ⟨x.val % 16, by omega⟩ x (by simp only; omega)

/-! ### A FLUSH cut short -/

/-- What is left of a row when one of its packets fails: extended, at rest, and all other rows as before
(93_implementation_defined.md U8). -/
structure FarEnd.Cut (start : FarEnd) (r : Row) (o : FarEnd) : Prop where
  link : o.link = .extended
  half : o.half = .nothing
  flushed : o.flushed = start.flushed
  gd : ∀ r' g', r' ≠ r → o.gd (xlate r' g').1 (xlate r' g').2 = start.gd (xlate r' g').1 (xlate r' g').2

/-- A failed command packet in a state whose graphics RAM agrees with `start` off row `r`. -/
theorem cut_command (start o : FarEnd) (r : Row) (v : Byte) (hl : o.link = .extended)
    (hf : o.flushed = start.flushed)
    (hg : ∀ r' g', r' ≠ r → o.gd (xlate r' g').1 (xlate r' g').2 = start.gd (xlate r' g').1 (xlate r' g').2) :
    FarEnd.Cut start r (FarEnd.step Config.block o (.tx (encodePacket Config.block v false false) .fail)) := by
  rw [step_tx_fail o v false hl]
  exact ⟨hl, rfl, hf, hg⟩

/-- A failed data packet at the address of word `(r, g)`. -/
theorem cut_data (start o : FarEnd) (r : Row) (g : Group) (v : Byte) (hl : o.link = .extended)
    (hf : o.flushed = start.flushed)
    (hv : o.av = some (xlate r g).1) (hh : o.ah = some (xlate r g).2)
    (hg : ∀ r' g', r' ≠ r → o.gd (xlate r' g').1 (xlate r' g').2 = start.gd (xlate r' g').1 (xlate r' g').2) :
    FarEnd.Cut start r (FarEnd.step Config.block o (.tx (encodePacket Config.block v true false) .fail)) := by
  rw [step_tx_fail o v true hl]
  simp only [FarEnd.spoil, hv, hh]
  refine ⟨hl, rfl, hf, fun r' g' hr => ?_⟩
  simp only [FarEnd.poke]
  rw [if_neg fun hc => hr (xlate_injective (Prod.ext hc.1 hc.2)).1]
  exact hg r' g' hr

/-- A row cut short by a failed packet. -/
theorem run_row_cut (fb : Memory) (o : FarEnd) (r : Row) (hl : o.link = .extended) (hh : o.half = .nothing)
    (l₁ l₂ : List Act) (q : SeqPoint) (k : Packet) (h : rowActs Config.block fb r = l₁ ++ .send q k :: l₂) :
    FarEnd.Cut o r (FarEnd.step Config.block (o.run (actTrace l₁)) (.tx k .fail)) := by
  have inRow := run_setAddr fb o r hl hh
  have fin : ∀ l l', (settleIfAny (.rowSettle r) Config.block.tRowSettle) = l ++ .send q k :: l' → False := by
    intro l l' hs
    have : Act.send q k ∈ settleIfAny (.rowSettle r) Config.block.tRowSettle := by rw [hs]; simp
    unfold settleIfAny at this
    split at this <;> simp at this
  unfold rowActs at h
  rw [List.append_assoc, List.append_assoc] at h
  rcases List.append_eq_append_iff.1 h with ⟨m, rfl, h2⟩ | ⟨m, h1, h2⟩
  · -- after the address-set
    cases m with
    | nil => simp at h2
    | cons b m =>
      simp only [List.cons_append, List.nil_append, List.cons.injEq] at h2
      obtain ⟨rfl, h2⟩ := h2
      have e : o.run (actTrace (setAddr Config.block r (xlate r 0) ++
          .settle (.addrSettle r) Config.block.tAddrSettle :: m)) =
          (o.run (actTrace (setAddr Config.block r (xlate r 0)))).run (actTrace m) := by
        simp only [actTrace_append, actTrace_cons, FarEnd.run_append]
        rfl
      rw [e]
      rcases List.append_eq_append_iff.1 h2 with ⟨m', -, h3⟩ | ⟨m', h3, h4⟩
      · exact (fin _ _ h3).elim
      · cases m' with
        | nil => exact (fin [] _ (by simpa using h4.symm)).elim
        | cons b m' =>
          simp only [List.cons_append, List.cons.injEq] at h4
          obtain ⟨rfl, -⟩ := h4
          obtain ⟨L₁, g, L₂, p, q', hL, hw, rfl⟩ := flatMap_split _ _ _ _ _ h3
          rw [finRange_split hL, actTrace_append, FarEnd.run_append]
          have hin := run_words fb o _ r inRow g.val (by omega)
          generalize (o.run (actTrace (setAddr Config.block r (xlate r 0)))).run
            (actTrace (((List.finRange 8).take g.val).flatMap (wordActs Config.block fb r))) = w at hin ⊢
          have hgd : ∀ r' g', r' ≠ r → w.gd (xlate r' g').1 (xlate r' g').2 =
              o.gd (xlate r' g').1 (xlate r' g').2 := fun r' g' hr => by rw [hin.gd r' g']; simp [hr]
          have hv : w.av = some (xlate r g).1 := by rw [(xlate_row r g).1]; exact hin.av
          have ha := hin.ah g rfl
          unfold wordActs sendData at hw
          match p, hw with
          | [], hw =>
            simp only [List.cons_append, List.nil_append, List.cons.injEq, Act.send.injEq] at hw
            obtain ⟨⟨-, rfl⟩, -⟩ := hw
            exact cut_data o w r g _ hin.link hin.flushed hv ha hgd
          | [x], hw =>
            simp only [List.cons_append, List.nil_append, List.cons.injEq, Act.send.injEq] at hw
            obtain ⟨rfl, ⟨-, rfl⟩, -⟩ := hw
            simp only [actTrace_cons, actTrace_nil, Act.events, List.append_nil, FarEnd.run_cons, FarEnd.run_nil]
            rw [step_high fb w o r _ hin]
            exact cut_data o _ r g _ hin.link hin.flushed hv ha hgd
          | x :: y :: p, hw =>
            simp only [List.cons_append, List.nil_append, List.cons.injEq] at hw
            have : Act.send q k ∈ settleIfAny (.dataSettle r g) Config.block.tDataSettle := by
              rw [hw.2.2]; simp
            unfold settleIfAny at this
            split at this <;> simp at this
  · -- in the address-set
    unfold setAddr sendCmd at h1
    match l₁, m, h1, h2 with
    | [], m, h1, h2 =>
      cases m with
      | nil => simp at h1
      | cons b m =>
        simp only [List.cons_append, List.cons.injEq] at h2
        obtain ⟨rfl, -⟩ := h2
        simp only [List.nil_append, List.cons.injEq, Act.send.injEq] at h1
        obtain ⟨⟨-, rfl⟩, -⟩ := h1
        exact cut_command o o r _ hl rfl fun _ _ _ => rfl
    | [x], m, h1, h2 =>
      cases m with
      | nil => simp at h1
      | cons b m =>
        simp only [List.cons_append, List.cons.injEq] at h2
        obtain ⟨rfl, -⟩ := h2
        simp only [List.cons_append, List.nil_append, List.cons.injEq, Act.send.injEq] at h1
        obtain ⟨rfl, ⟨-, rfl⟩, -⟩ := h1
        simp only [actTrace_cons, actTrace_nil, Act.events, List.append_nil, FarEnd.run_cons, FarEnd.run_nil,
          step_tx_ok, Bool.false_eq_true, if_false]
        rw [command_vertical o _ hl hh]
        exact cut_command o _ r _ hl rfl fun _ _ _ => rfl
    | x :: y :: l, m, h1, h2 =>
      simp only [List.cons_append, List.cons.injEq, List.nil_eq, List.append_eq_nil_iff] at h1
      obtain ⟨-, -, rfl, rfl⟩ := h1
      simp at h2

/-- A FLUSH cut short by a failed packet, in row `r`: the rows before hold the new image, the rows after the old
(43_sequencer.md R104, U8). -/
theorem run_flush_cut (fb : Memory) (o : FarEnd) (hl : o.link = .extended) (hh : o.half = .nothing)
    (l₁ l₂ : List Act) (q : SeqPoint) (k : Packet) (h : flushActs Config.block fb = l₁ ++ .send q k :: l₂) :
    ∃ (r : Row) (m p : List Act), rowActs Config.block fb r = m ++ .send q k :: p ∧
      sends l₁ = 18 * r.val + sends m ∧ sends m < 18 ∧
      (FarEnd.step Config.block (o.run (actTrace l₁)) (.tx k .fail)).link = .extended ∧
      (FarEnd.step Config.block (o.run (actTrace l₁)) (.tx k .fail)).half = .nothing ∧
      (FarEnd.step Config.block (o.run (actTrace l₁)) (.tx k .fail)).flushed = o.flushed ∧
      ∀ r' g', r' ≠ r → (FarEnd.step Config.block (o.run (actTrace l₁)) (.tx k .fail)).gd
          (xlate r' g').1 (xlate r' g').2 =
        if r' < r then some (wordAt fb r' g') else o.gd (xlate r' g').1 (xlate r' g').2 := by
  obtain ⟨-, -, -, m₁, m₂, rfl, hc⟩ := flush_before_call Config.block fb l₁ l₂ _ rfl h
  obtain ⟨L₁, r, L₂, p, p', hL, hr, rfl⟩ := flatMap_split _ _ _ _ _ hc
  have hrows := run_rows fb o hl hh r.val (by omega)
  have e : o.run (actTrace (.select true :: (L₁.flatMap (rowActs Config.block fb) ++ p))) =
      (o.run (actTrace (((List.finRange 64).take r.val).flatMap (rowActs Config.block fb)))).run (actTrace p) := by
    rw [finRange_split hL, actTrace_cons, actTrace_append, FarEnd.run_append, FarEnd.run_append]
    rfl
  rw [e]
  have hcut := run_row_cut fb _ r hrows.1 hrows.2.1 p p' q k hr
  have hm : sends p < 18 := by
    have := sends_rowActs Config.block fb r
    rw [hr, sends_append] at this
    simp only [sends] at this
    omega
  refine ⟨r, p, p', hr, ?_, hm, hcut.link, hcut.half, hcut.flushed.trans hrows.2.2.1, fun r' g' hne => ?_⟩
  · have : L₁.length = r.val := by rw [finRange_split hL]; simp
    simp only [sends, sends_append, sends_flatMap _ _ 18 (sends_rowActs Config.block fb), this]
    omega
  · rw [hcut.gd r' g' hne, hrows.2.2.2 r' g']
    simp only [Fin.lt_def]

/-! ### The observer's bookkeeping -/

@[simp] theorem FarEnd.known_link (o : FarEnd) : o.known.link = o.link := by unfold FarEnd.known; split <;> rfl
@[simp] theorem FarEnd.known_half (o : FarEnd) : o.known.half = o.half := by unfold FarEnd.known; split <;> rfl
@[simp] theorem FarEnd.known_flushed (o : FarEnd) : o.known.flushed = o.flushed := by
  unfold FarEnd.known; split <;> rfl

/-- After a FLUSH that answered OK what is tracked is known. -/
theorem FarEnd.known_of_flushed (o : FarEnd) (h : o.flushed = true) : o.known = o := if_pos h

/-- Before the first FLUSH that answers OK no pixel of the panel is known (20_memory.md R46). -/
theorem FarEnd.panel_of_not_flushed (o : FarEnd) (h : o.flushed = false) (x : Column) (y : Row) :
    o.known.panel x y = none := by
  rw [panel_eq, FarEnd.known, if_neg (by simp [h])]
  rfl

/-- The panel when every word is known at its address (20_memory.md R48). -/
theorem FarEnd.panel_of_words (o : FarEnd) (fb : Memory) (h : o.flushed = true)
    (hw : ∀ r g, o.gd (xlate r g).1 (xlate r g).2 = some (wordAt fb r g)) (x : Column) (y : Row) :
    o.known.panel x y = some (pixel fb x y) := by
  rw [FarEnd.known_of_flushed _ h, panel_eq, hw, Option.map_some, wordAt_column]

/-- The panel when the rows before `r` hold the image `fb` and the rows after it what they held before. -/
theorem FarEnd.panel_of_cut (o o' : FarEnd) (fb : Memory) (r : Row) (h : o'.flushed = o.flushed)
    (hw : ∀ r' g, r' ≠ r → o'.gd (xlate r' g).1 (xlate r' g).2 =
      if r' < r then some (wordAt fb r' g) else o.gd (xlate r' g).1 (xlate r' g).2) :
    (o.flushed = true → (∀ x y, y < r → o'.known.panel x y = some (pixel fb x y)) ∧
      ∀ x y, r < y → o'.known.panel x y = o.known.panel x y) ∧
    (o.flushed = false → ∀ x y, o'.known.panel x y = none) := by
  refine ⟨fun ho => ⟨fun x y hy => ?_, fun x y hy => ?_⟩, fun ho => FarEnd.panel_of_not_flushed _ (h.trans ho)⟩
  · rw [FarEnd.known_of_flushed _ (h.trans ho), panel_eq, hw _ _ (ne_of_lt hy), if_pos hy, Option.map_some,
      wordAt_column]
  · rw [FarEnd.known_of_flushed _ (h.trans ho), FarEnd.known_of_flushed _ ho, panel_eq, panel_eq,
      hw _ _ (ne_of_gt hy), if_neg (not_lt.2 hy.le)]

/-- The bookkeeping after more events. -/
def Observer.run (o : Observer) (es : List Event) : Observer := es.foldl (Observer.step Config.block) o

@[simp] theorem Observer.run_nil (o : Observer) : o.run [] = o := rfl

@[simp] theorem Observer.run_cons (o : Observer) (e : Event) (es : List Event) :
    o.run (e :: es) = (Observer.step Config.block o e).run es := rfl

@[simp] theorem Observer.run_append (o : Observer) (es fs : List Event) : o.run (es ++ fs) = (o.run es).run fs := by
  simp [Observer.run]

theorem watch_append (es fs : List Event) : watch Config.block (es ++ fs) = (watch Config.block es).run fs := by
  simp [watch, Observer.run]

/-- What the observer waits for, after more events. -/
theorem observe_append_link (es fs : List Event) :
    (observe Config.block (es ++ fs)).link = ((watch Config.block es).run fs).tracked.link := by
  simp [observe, watch_append]

/-- What is half received, after more events. -/
theorem observe_append_half (es fs : List Event) :
    (observe Config.block (es ++ fs)).half = ((watch Config.block es).run fs).tracked.half := by
  simp [observe, watch_append]

/-- Chip select is not released after all the packets of a FLUSH: nothing changes. -/
theorem Observer.release_of_ne (o : Observer) (h : o.answered ≠ flushPacketCount) : o.release = o.tracked :=
  if_neg fun hc => h hc.1

/-- Answered port calls are tracked, and their packets counted. -/
theorem Observer.run_calls (o : Observer) (l : List Act) (h : ∀ a ∈ l, a.isCall = true) :
    o.run (actTrace l) = ⟨o.tracked.run (actTrace l), o.answered + sends l⟩ := by
  induction l generalizing o with
  | nil => rfl
  | cons a l ih =>
    have hl := fun b hb => h b (List.mem_cons_of_mem a hb)
    cases a with
    | select b => exact absurd (h _ List.mem_cons_self) Bool.false_ne_true
    | toMode m => exact absurd (h _ List.mem_cons_self) Bool.false_ne_true
    | send q k =>
      simp only [actTrace_cons, Act.events, List.cons_append, List.nil_append, Observer.run_cons, ih _ hl,
        Observer.step, FarEnd.run_cons, sends]
      rw [Nat.add_assoc]
      congr 2
      omega
    | settle q n =>
      simp only [actTrace_cons, Act.events, List.cons_append, List.nil_append, Observer.run_cons, ih _ hl,
        Observer.step, FarEnd.run_cons, sends]
      rfl

/-- An INIT that answers OK (43_sequencer.md R100). -/
theorem watch_init (o : Observer) (h : o.tracked.link = .expects .funcBasic) :
    (o.run (initTrace Config.block)).tracked.link = .extended ∧
    (o.run (initTrace Config.block)).tracked.half = o.tracked.half ∧
    (o.run (initTrace Config.block)).tracked.flushed = o.tracked.flushed := by
  obtain ⟨⟨l, hf, av, ah, gd, fl⟩, n⟩ := o
  simp only at h
  subst h
  exact ⟨rfl, rfl, rfl⟩

/-- An INIT that fails leaves nothing known (43_sequencer.md R101). -/
theorem watch_init_cut (o : Observer) (h : o.tracked.link = .expects .funcBasic) (k : Fin 3) (p : Packet) :
    (o.run ((initTrace Config.block).take (2 * k.val + 1) ++ [.tx p .fail, .cs false])).tracked = .unknown := by
  have hu := run_initTrace_take o.tracked h k
  have ht : o.run ((initTrace Config.block).take (2 * k.val + 1)) =
      ⟨o.tracked.run ((initTrace Config.block).take (2 * k.val + 1)), k.val⟩ := by
    match k with
    | 0 => rfl
    | 1 => rfl
    | 2 => rfl
  rw [Observer.run_append, ht]
  simp only [Observer.run_cons, Observer.run_nil, Observer.step]
  rw [step_tx_fail_unknown _ _ hu, Observer.release_of_ne]
  have : k.val < 3 := k.isLt
  simp only [flushPacketCount]
  omega

/-- A FLUSH that answers OK: every word is known at its address (43_sequencer.md R112). -/
theorem watch_flush (fb : Memory) (o : Observer) (hl : o.tracked.link = .extended) (hh : o.tracked.half = .nothing) :
    (o.run (flushTrace Config.block fb)).tracked.link = .extended ∧
    (o.run (flushTrace Config.block fb)).tracked.half = .nothing ∧
    (o.run (flushTrace Config.block fb)).tracked.flushed = true ∧
    ∀ r g, (o.run (flushTrace Config.block fb)).tracked.gd (xlate r g).1 (xlate r g).2 = some (wordAt fb r g) := by
  obtain ⟨h1, h2, h3⟩ := run_flushCalls fb o.tracked hl hh
  have hs : sends (flushCalls Config.block fb) = flushPacketCount := by
    have := sends_flushActs Config.block fb
    simpa [flushActs_eq, sends, flushPacketCount] using this
  have e : (o.run (flushTrace Config.block fb)).tracked =
      { o.tracked.run (actTrace (flushCalls Config.block fb)) with flushed := true } := by
    rw [flushTrace_calls, Observer.run_append, Observer.run_append]
    simp only [Observer.run_cons, Observer.run_nil, Observer.step]
    rw [Observer.run_calls _ _ (isCall_flushCalls _ _)]
    simp only [Observer.release, Nat.zero_add, hs, h1, and_self, if_true]
  rw [e]
  exact ⟨h1, h2, rfl, h3⟩

/-- A FLUSH cut short in a packet, with chip select released after it or not: the rows before hold the new image, the
rows after the old, and whether that is known is as before (43_sequencer.md R104, U8). -/
theorem watch_flush_cut (fb : Memory) (o : Observer) (hl : o.tracked.link = .extended)
    (hh : o.tracked.half = .nothing) (l₁ l₂ : List Act) (q : SeqPoint) (k : Packet)
    (h : flushActs Config.block fb = l₁ ++ .send q k :: l₂) (rest : List Event)
    (hr : rest = [] ∨ rest = [.cs false]) :
    ∃ r : Row, sends l₁ / 18 = r.val ∧
      (o.run (actTrace l₁ ++ .tx k .fail :: rest)).tracked.link = .extended ∧
      (o.run (actTrace l₁ ++ .tx k .fail :: rest)).tracked.half = .nothing ∧
      (o.run (actTrace l₁ ++ .tx k .fail :: rest)).tracked.flushed = o.tracked.flushed ∧
      ∀ r' g', r' ≠ r → (o.run (actTrace l₁ ++ .tx k .fail :: rest)).tracked.gd (xlate r' g').1 (xlate r' g').2 =
        if r' < r then some (wordAt fb r' g') else o.tracked.gd (xlate r' g').1 (xlate r' g').2 := by
  obtain ⟨-, -, -, m₁, m₂, rfl, hc⟩ := flush_before_call Config.block fb l₁ l₂ _ rfl h
  obtain ⟨r, m, p, -, hn, hm, h1, h2, h3, h4⟩ := run_flush_cut fb o.tracked hl hh _ l₂ q k h
  have hr63 : r.val < 64 := r.isLt
  have hcalls : ∀ a ∈ m₁, a.isCall = true := fun a ha => isCall_flushCalls Config.block fb a (by rw [hc]; simp [ha])
  have e : (o.run (actTrace (.select true :: m₁) ++ .tx k .fail :: rest)).tracked =
      FarEnd.step Config.block (o.tracked.run (actTrace (.select true :: m₁))) (.tx k .fail) := by
    simp only [actTrace_cons, Act.events, List.cons_append, List.nil_append, Observer.run_cons, Observer.run_append,
      Observer.step]
    rw [Observer.run_calls _ _ hcalls]
    rcases hr with rfl | rfl
    · rfl
    · simp only [Observer.run_cons, Observer.run_nil, Observer.step]
      rw [Observer.release_of_ne _ (by simp only [sends, flushPacketCount] at hn ⊢; omega)]
      rfl
  rw [e]
  exact ⟨r, by rw [hn]; omega, h1, h2, h3, h4⟩

end Sys2Proof.Machine
end

