-- ==== Sys2Proof/Laws/PerInstr.lean ====
section
/-! SUPPORT. Per-instruction families. EncodeRow: the encoding of an instruction is a word of the opcode table's row
of its mnemonic, and of no other row (30_encoding.md R54, opcode_table.json). -/

namespace Sys2Proof.Laws.EncodeRow

/-- Every row that the encoding matches is the row of the instruction's mnemonic, and there is one. -/
def Statement (i : Instr) : Prop :=
  ∃ t ∈ opcodeTable, t.mnemonic = i.mnemonic ∧ t.Matches (encode i) ∧
    ∀ u ∈ opcodeTable, u.Matches (encode i) → u = t

/-- The `OP` byte of each row is its own, and is compared whole. -/
theorem of_row (i : Instr) (t : TableRow) (ht : t ∈ opcodeTable) (hm : t.mnemonic = i.mnemonic)
    (ho : opField t.pattern = opcode i) (ha : operandA i &&& aField t.mask = aField t.pattern)
    (hb : operandB i &&& bField t.mask = bField t.pattern) : Statement i := by
  have full : ∀ u ∈ opcodeTable, opField u.mask = 0xFF#8 := by decide
  have own : ∀ u ∈ opcodeTable, ∀ v ∈ opcodeTable, opField u.pattern = opField v.pattern → u = v := by decide
  have all : ∀ b : Byte, b &&& 0xFF#8 = b := by decide
  refine ⟨t, ht, hm, (matches_iff t _).2 ⟨?_, ?_, ?_⟩, fun u hu h => own u hu t ht ?_⟩
  · rw [opField_encode, full t ht, all, ho]
  · rw [aField_encode, ha]
  · rw [bField_encode, hb]
  · have := ((matches_iff u _).1 h).1
    rw [opField_encode, full u hu, all] at this
    rw [← this, ho]

theorem and_zero16 (a : BitVec 16) : a &&& 0#16 = 0#16 := by simp

theorem setPixel (x y : Int) : Statement (.setPixel x y) :=
  of_row _ ⟨"SET_PIXEL", 0x0100000000#40, 0xFF00000000#40⟩ (by decide) rfl rfl (and_zero16 _) (and_zero16 _)

theorem clearPixel (x y : Int) : Statement (.clearPixel x y) :=
  of_row _ ⟨"CLEAR_PIXEL", 0x0200000000#40, 0xFF00000000#40⟩ (by decide) rfl rfl (and_zero16 _) (and_zero16 _)

theorem getPixel (x y : Int) : Statement (.getPixel x y) :=
  of_row _ ⟨"GET_PIXEL", 0x0300000000#40, 0xFF00000000#40⟩ (by decide) rfl rfl (and_zero16 _) (and_zero16 _)

theorem clearAll : Statement .clearAll :=
  of_row _ ⟨"CLEAR_ALL", 0x0400000000#40, 0xFFFFFFFFFF#40⟩ (by decide) rfl rfl rfl rfl

theorem rawRead (i : Nat) : Statement (.rawRead i) :=
  of_row _ ⟨"RAW_READ", 0x0500000000#40, 0xFF0000FFFF#40⟩ (by decide) rfl rfl (and_zero16 _)
    (show 0#16 &&& bField 0xFF0000FFFF#40 = bField 0x0500000000#40 by decide)

theorem highClear (value : Byte) : (0#8 ++ value) &&& aField 0xFFFF00FFFC#40 = aField 0x1000000000#40 := by
  revert value; decide

theorem flagsOnly (rs rw : Bool) : (0#14 ++ BitVec.ofBool rw ++ BitVec.ofBool rs) &&& bField 0xFFFF00FFFC#40 =
    bField 0x1000000000#40 := by
  revert rs rw; decide

theorem encode (value : Byte) (rs rw : Bool) : Statement (.encode value rs rw) :=
  of_row _ ⟨"ENCODE", 0x1000000000#40, 0xFFFF00FFFC#40⟩ (by decide) rfl rfl (highClear value) (flagsOnly rs rw)

theorem xlate (r g : Nat) : Statement (.xlate r g) :=
  of_row _ ⟨"XLATE", 0x1100000000#40, 0xFF00000000#40⟩ (by decide) rfl rfl (and_zero16 _) (and_zero16 _)

theorem init : Statement .init :=
  of_row _ ⟨"INIT", 0x2000000000#40, 0xFFFFFFFFFF#40⟩ (by decide) rfl rfl rfl rfl

theorem flush : Statement .flush :=
  of_row _ ⟨"FLUSH", 0x2100000000#40, 0xFFFFFFFFFF#40⟩ (by decide) rfl rfl rfl rfl

end Sys2Proof.Laws.EncodeRow
end

