-- ==== Sys2Proof/Laws/Pseudo.lean ====
section
/-! SUPPORT. Runs of the host's moves, one move at a time; the operation of a draw item. -/

namespace Sys2Proof.Machine

@[simp] theorem runMoves_nil (s : State) : runMoves [] s = endOfRun s := rfl

/-- A run whose last operation has completed is over (70_reset_and_hazards.md R143). -/
@[simp] theorem endOfRun_idle (s : State) (h : s.busy = none) : endOfRun s = .next s := by simp only [endOfRun, h]

/-- A run with a port call that never returns is not over (70_reset_and_hazards.md R143). -/
@[simp] theorem endOfRun_busy (s : State) (q : SeqPoint) (h : s.busy = some q) :
    endOfRun s = .fault (.portNeverReturned q) := by simp only [endOfRun, h]

/-- A reset as the next move of a run (70_reset_and_hazards.md R129). -/
theorem runMoves_reset (ms : List HostMove) (s : State) :
    runMoves (.reset :: ms) s = runMoves ms { State.reset with tx := s.tx, dly := s.dly } := rfl

/-- A command word as the next move of a run (70_reset_and_hazards.md R143). -/
theorem runMoves_command {w : Cmd} {i : Instr} (ms : List HostMove) {s t : State} (hb : s.busy = none)
    (hd : decode w = .ok i) (he : exec i { s with host := [] } = .next t) :
    runMoves (.command w :: ms) s = runMoves ms t := by
  have : step { s with host := [.command w] } = .next t := by simpa only [step, hb, hd] using he
  simp only [runMoves, this]

/-- An operation that a command word can carry is presented (30_encoding.md R53). -/
theorem present_cons_of_wf {i : Instr} (ops : List Instr) (h : i.WellFormed) :
    present (i :: ops) = .command (encode i) :: present ops := by
  simp only [present, List.filter_cons, if_pos h, List.map_cons]

/-- One that no command word can carry is not (log 22). -/
theorem present_cons_of_not_wf {i : Instr} (ops : List Instr) (h : ¬i.WellFormed) :
    present (i :: ops) = present ops := by
  simp only [present, List.filter_cons, if_neg h]

/-- The step on a host's move does not depend on the moves after it. -/
theorem step_moves (m : HostMove) (ms : List HostMove) (s : State) :
    (∃ t, step { s with host := [m] } = .next t ∧ t.host = [] ∧
      step { s with host := m :: ms } = .next { t with host := ms }) ∨
    ∃ f, step { s with host := [m] } = .fault f ∧ step { s with host := m :: ms } = .fault f := by
  cases m with
  | reset => exact .inl ⟨_, rfl, rfl, rfl⟩
  | command w =>
    cases hb : s.busy with
    | some q => exact .inr ⟨_, rfl, rfl⟩
    | none =>
      left
      cases hd : decode w with
      | error r => exact ⟨_, by simp [step, hd]; rfl, rfl, by simp [step, hd, State.raise, State.respond]⟩
      | ok i =>
        obtain ⟨t, ev, new, h1, h2, h3, h4, h5⟩ := exec_context i { s with busy := none, host := [] }
        refine ⟨t, by simpa [step, hd] using h1, h2, ?_⟩
        have h6 := h5 ms s.out s.rsp
        rw [State.inContext, State.inContext, ← h3, ← h4] at h6
        simpa [step, hd] using h6

/-- A draw item on the canvas is one pixel operation (30_encoding.md R66). -/
theorem exec_drawItem (c : Column) (r : Row) (on : Bool) (s : State) :
    exec (DrawItem.op ⟨c.val, r.val, on⟩) s =
      .next ((s.setFb (if on then fbSetPixel s.fb c r else fbClearPixel s.fb c r)).answer 0#24) := by
  cases on
  · exact execClearPixel_coe c r s
  · exact execSetPixel_coe c r s

/-- The pixels after a draw item on the canvas. -/
theorem pixel_drawItem (fb : Memory) (c : Column) (r : Row) (on : Bool) (c' : Column) (r' : Row) :
    pixel (if on then fbSetPixel fb c r else fbClearPixel fb c r) c' r' =
      if (c', r') = (c, r) then on else pixel fb c' r' := by
  cases on
  · simp only [Bool.false_eq_true, if_false, pixel_fbClearPixel]
    by_cases h : (c', r') = (c, r) <;> simp [h]
  · simp only [if_true, pixel_fbSetPixel]
    by_cases h : (c', r') = (c, r) <;> simp [h]

end Sys2Proof.Machine
end

