-- ==== Sys2Proof/Tests/Slice0.lean ====
section
/-! SUPPORT. Tests: the WellFormed smoke; words written out from the encoding tables of 30_encoding.md; one step each
on vectors of 95_test_vectors.md (their numbers V<n> in the names); and for every obligation with hypotheses a witness
that meets them, at the boundaries of their ranges. -/

namespace Sys2Proof.Tests

open Sys2Proof.Machine

/-! ### WellFormed: one ill-formed term per check -/

theorem test_wf_setPixel : (Instr.setPixel (-32769) 0).wellFormed = false ∧ (Instr.setPixel 32768 0).wellFormed = false ∧
    (Instr.setPixel 0 (-32769)).wellFormed = false ∧ (Instr.setPixel 0 32768).wellFormed = false ∧
    (Instr.setPixel (-32768) 32767).wellFormed = true := by decide

theorem test_wf_clearPixel : (Instr.clearPixel (-32769) 0).wellFormed = false ∧
    (Instr.clearPixel 32768 0).wellFormed = false ∧ (Instr.clearPixel 0 (-32769)).wellFormed = false ∧
    (Instr.clearPixel 0 32768).wellFormed = false ∧ (Instr.clearPixel (-32768) 32767).wellFormed = true := by decide

theorem test_wf_getPixel : (Instr.getPixel (-32769) 0).wellFormed = false ∧ (Instr.getPixel 32768 0).wellFormed = false ∧
    (Instr.getPixel 0 (-32769)).wellFormed = false ∧ (Instr.getPixel 0 32768).wellFormed = false ∧
    (Instr.getPixel (-32768) 32767).wellFormed = true := by decide

theorem test_wf_rawRead : (Instr.rawRead 65536).wellFormed = false ∧ (Instr.rawRead 65535).wellFormed = true := by
  decide

theorem test_wf_xlate : (Instr.xlate 65536 0).wellFormed = false ∧ (Instr.xlate 0 65536).wellFormed = false ∧
    (Instr.xlate 65535 65535).wellFormed = true := by decide

/-! ### Decode: words written out from 30_encoding.md R51, R54 -/

theorem test_decode_pixels :
    decode (0x01#8 ++ 0x007F#16 ++ 0x003F#16) = .ok (.setPixel 127 63) ∧
    decode (0x01#8 ++ 0x8000#16 ++ 0x7FFF#16) = .ok (.setPixel (-32768) 32767) ∧
    decode (0x02#8 ++ 0x00C8#16 ++ 0x000A#16) = .ok (.clearPixel 200 10) ∧
    decode (0x03#8 ++ 0xFFFF#16 ++ 0x0001#16) = .ok (.getPixel (-1) 1) := ⟨rfl, rfl, rfl, rfl⟩

theorem test_decode_others :
    decode (0x04#8 ++ 0#16 ++ 0#16) = .ok .clearAll ∧ decode (0x05#8 ++ 0xFFFF#16 ++ 0#16) = .ok (.rawRead 65535) ∧
    decode (0x10#8 ++ (0#8 ++ 0xA5#8) ++ (0#14 ++ 1#1 ++ 0#1)) = .ok (.encode 0xA5#8 false true) ∧
    decode (0x10#8 ++ (0#8 ++ 0x01#8) ++ (0#14 ++ 0#1 ++ 1#1)) = .ok (.encode 0x01#8 true false) ∧
    decode (0x11#8 ++ 0x0028#16 ++ 0x0003#16) = .ok (.xlate 40 3) ∧ decode (0x20#8 ++ 0#16 ++ 0#16) = .ok .init ∧
    decode (0x21#8 ++ 0#16 ++ 0#16) = .ok .flush := ⟨rfl, rfl, rfl, rfl, rfl, rfl, rfl⟩

/-- V20, V25, V46, V47, V78 to V82. -/
theorem test_decode_illegal :
    decode 0x0400010000#40 = .error (.reservedNotZero 0x04#8) ∧
    decode 0x0500000001#40 = .error (.reservedNotZero 0x05#8) ∧
    decode 0x1001000000#40 = .error (.reservedNotZero 0x10#8) ∧
    decode 0x1000A50004#40 = .error (.reservedNotZero 0x10#8) ∧
    decode 0x0000000000#40 = .error (.unknownOpcode 0x00#8) ∧
    decode 0x0600000000#40 = .error (.unknownOpcode 0x06#8) ∧
    decode 0xFFFFFFFFFF#40 = .error (.unknownOpcode 0xFF#8) ∧
    decode 0x2000000001#40 = .error (.reservedNotZero 0x20#8) ∧
    decode 0x2180000000#40 = .error (.reservedNotZero 0x21#8) := ⟨rfl, rfl, rfl, rfl, rfl, rfl, rfl, rfl, rfl⟩

/-- The words the vectors print for these operations. -/
theorem test_encode : encode (.setPixel (-1) 5) = 0x01FFFF0005#40 ∧ encode (.rawRead 1024) = 0x0504000000#40 ∧
    encode (.encode 0xA5#8 false true) = 0x1000A50002#40 ∧ encode (.xlate 40 3) = 0x1100280003#40 ∧
    encode .flush = 0x2100000000#40 := by decide

/-- 30_encoding.md R64. -/
theorem test_asm : asm (.setPixel (-1) 5) = "SET_PIXEL -1, 5" ∧ asm (.encode 0xA5#8 true false) = "ENCODE 0xA5, 1, 0" ∧
    hexWord 0x01FFFF0005#40 = "0x01FFFF0005" := by decide

/-! ### One step -/

/-- The state a step leads to, if it does. -/
def result : Host.Outcome State Fault Refusal → Option State
  | .next t => some t
  | .fault _ => none
  | .refused _ => none

/-- The block after one command word, from reset with the framebuffer `fb`. -/
def after (fb : Memory) (w : Cmd) : Option State := result (step { State.reset with fb := fb, host := [.command w] })

/-- The response words and the framebuffer after one command word. -/
def shown (fb : Memory) (w : Cmd) : Option (List (BitVec 28) × Memory) :=
  (after fb w).map fun t => (t.rsp.map Response.word, t.fb)

/-- V3, V4. -/
theorem test_setPixel : shown [(0, 0x80#8)] 0x0100070000#40 = some ([0x0000000#28], [(0, 0x81#8)]) ∧
    shown [] 0x01007F003F#40 = some ([0x0000000#28], [(1023, 0x01#8)]) := by decide

/-- V5, V6, V7, V8. -/
theorem test_setPixel_offCanvas :
    shown [] 0x0100800000#40 = some ([0x0000000#28], []) ∧ shown [] 0x0100000040#40 = some ([0x0000000#28], []) ∧
    shown [] 0x01FFFF0005#40 = some ([0x0000000#28], []) ∧ shown [] 0x010005FFFF#40 = some ([0x0000000#28], []) :=
  ⟨rfl, rfl, rfl, rfl⟩

/-- V10, V11: the last bit of a byte cleared leaves nothing listed. -/
theorem test_clearPixel : shown [(0, 0xFF#8)] 0x0200030000#40 = some ([0x0000000#28], [(0, 0xEF#8)]) ∧
    shown [(0, 0x10#8)] 0x0200030000#40 = some ([0x0000000#28], []) := by decide

/-- V14, V15, V16. -/
theorem test_getPixel : shown [(16, 0x04#8)] 0x0300050001#40 = some ([0x0000003#28], [(16, 0x04#8)]) ∧
    shown [(16, 0x04#8)] 0x0300040001#40 = some ([0x0000002#28], [(16, 0x04#8)]) ∧
    shown [(16, 0x04#8)] 0x0300800001#40 = some ([0x0000000#28], [(16, 0x04#8)]) := by decide

/-- V18. -/
theorem test_clearAll : shown [(0, 0xFF#8), (1023, 0xFF#8)] 0x0400000000#40 = some ([0x0000000#28], []) := by decide

/-- V21, V23. -/
theorem test_rawRead : shown [(1023, 0x01#8)] 0x0503FF0000#40 = some ([0x0000001#28], [(1023, 0x01#8)]) ∧
    shown [] 0x0504000000#40 = some ([0x2000000#28], []) := by decide

/-- V33, V37, V43, V44, V45. -/
theorem test_encode_packets : shown [] 0x1000340000#40 = some ([0x0F83040#28], []) ∧
    shown [] 0x10009F0000#40 = some ([0x0F890F0#28], []) ∧ shown [] 0x1000A50001#40 = some ([0x0FAA050#28], []) ∧
    shown [] 0x1000A50002#40 = some ([0x0FCA050#28], []) ∧ shown [] 0x1000A50003#40 = some ([0x0FEA050#28], []) :=
  ⟨rfl, rfl, rfl, rfl, rfl⟩

/-- V55, V56, V58, V61. -/
theorem test_xlate : shown [] 0x11001F0007#40 = some ([0x0001F07#28], []) ∧
    shown [] 0x1100200000#40 = some ([0x0000008#28], []) ∧ shown [] 0x1100280003#40 = some ([0x000080B#28], []) ∧
    shown [] 0x11003F0007#40 = some ([0x0001F0F#28], []) := by decide

/-- V62, V63, V64. -/
theorem test_xlate_out : shown [] 0x1100400000#40 = some ([0x2000000#28], []) ∧
    shown [] 0x1100000008#40 = some ([0x2000000#28], []) ∧ shown [] 0x11FFFFFFFF#40 = some ([0x2000000#28], []) :=
  ⟨rfl, rfl, rfl⟩

/-- V70, V78. -/
theorem test_flush_uninit : shown [] 0x2100000000#40 = some ([0x4000000#28], []) ∧
    shown [] 0x0000000000#40 = some ([0x3000000#28], []) := by decide

/-! ### States for the witnesses -/

/-- `s` with a transport that answers `n` calls well, then as `tx` says, and a delay port that returns from `m` calls,
then does as `dly` says. -/
def platform (s : State) (n : Nat) (tx : List TxAnswer) (m : Nat) (dly : List DelayAnswer) : State :=
  { s with tx := ⟨List.replicate n (.answered .ok) ++ tx, 0⟩, dly := ⟨List.replicate m .returned ++ dly, 0⟩ }

theorem platform_ok (s : State) (n : Nat) (tx : List TxAnswer) (m : Nat) (dly : List DelayAnswer) :
    (platform s n tx m dly).TransportOk n := fun k hk =>
  State.txAnswer_of_script _ k _ (by rw [platform, List.getElem?_append_left (by simpa using hk)]; simp [hk])

theorem platform_tx (s : State) (n : Nat) (a : TxAnswer) (tx : List TxAnswer) (m : Nat) (dly : List DelayAnswer) :
    (platform s n (a :: tx) m dly).txAnswer n = a :=
  State.txAnswer_of_script _ n _ (by simp [platform])

theorem platform_returns (s : State) (n : Nat) (tx : List TxAnswer) (m : Nat) (dly : List DelayAnswer) :
    (platform s n tx m dly).DelaysReturn m := fun k hk =>
  State.delayAnswer_of_script _ k _ (by rw [platform, List.getElem?_append_left (by simpa using hk)]; simp [hk])

theorem platform_dly (s : State) (n : Nat) (tx : List TxAnswer) (m : Nat) (a : DelayAnswer) (dly : List DelayAnswer) :
    (platform s n tx m (a :: dly)).delayAnswer m = a :=
  State.delayAnswer_of_script _ m _ (by simp [platform])

/-- The block after a successful INIT, one pixel drawn: a state that reset is not. -/
def booted : State :=
  { State.reset with mode := .extgfx, fb := [(33, 0x04#8)], out := initTrace Config.block, rsp := [⟨.ok, 0#24⟩] }

/-- V71: INIT from reset with a transport that answers well; the trace is the packets of R100. -/
theorem test_init : result (step { platform State.reset 3 [] 3 [] with host := [.command 0x2000000000#40] }) = some
    { State.reset with
      mode := .extgfx
      rsp := [⟨.ok, 0#24⟩]
      out := [.cs true, .tx ⟨0xF8#8, 0x30#8, 0x00#8⟩ .ok, .dly Config.block.tInitSettle,
        .tx ⟨0xF8#8, 0x30#8, 0x40#8⟩ .ok, .dly Config.block.tInitSettle,
        .tx ⟨0xF8#8, 0x30#8, 0x60#8⟩ .ok, .dly Config.block.tInitSettle, .cs false] } := rfl

/-- V74. -/
theorem test_init_second_fails :
    result (step { platform State.reset 1 [.answered .fail] 1 [] with host := [.command 0x2000000000#40] }) = some
    { State.reset with
      rsp := [⟨.transportError, 0#24⟩]
      out := [.cs true, .tx ⟨0xF8#8, 0x30#8, 0x00#8⟩ .ok, .dly Config.block.tInitSettle,
        .tx ⟨0xF8#8, 0x30#8, 0x40#8⟩ .fail, .cs false] } := rfl

/-- The block after V77's FLUSH: its first write fails. -/
def failedFirst : State :=
  { platform booted 0 (.answered .fail :: List.replicate 1152 (.answered .ok)) (flushDelays Config.block) [] with
    tx := ⟨List.replicate 1152 (.answered .ok), 0⟩
    rsp := [⟨.ok, 0#24⟩, ⟨.transportError, 0#24⟩]
    out := initTrace Config.block ++ [.cs true, .tx ⟨0xF8#8, 0x80#8, 0x00#8⟩ .fail, .cs false] }

/-- V77. -/
theorem test_flush_first_fails :
    exec .flush (platform booted 0 (.answered .fail :: List.replicate 1152 (.answered .ok))
      (flushDelays Config.block) []) = .next failedFirst := rfl

/-- The booted block is in a good state, whatever the platform will answer. -/
theorem booted_inv (n : Nat) (tx : List TxAnswer) (m : Nat) (dly : List DelayAnswer) :
    Inv (platform booted n tx m dly) where
  fbCanonical := show Memory.wf [(33, 0x04#8)] by decide
  idleMode := fun _ => by simp [platform, booted]
  busyMode := fun q h => by simp [platform, booted] at h
  selected := rfl
  csOfTrace := rfl
  errorData := fun r hr _ => by simp [platform, booted] at hr; rw [hr]
  written := fun k r hk => by
    simp only [platform, booted, initTrace, List.mem_cons, List.not_mem_nil, Event.tx.injEq, reduceCtorEq, or_false,
      false_or] at hk
    rcases hk with ⟨rfl, -⟩ | ⟨rfl, -⟩ | ⟨rfl, -⟩ <;> exact ⟨_, _, rfl⟩
  farEndUninit := fun _ h => by simp [platform, booted] at h
  farEndExtended := fun _ _ => (FarEnd.known_link _).trans (watch_init .start rfl).1
  farEndAtRest := fun _ => (FarEnd.known_half _).trans (watch_init .start rfl).2.1

/-- The booted block after a FLUSH that answered OK, another pixel drawn since. -/
def flushedOnce : State :=
  { booted with fb := [(33, 0x04#8), (1023, 0x01#8)], out := initTrace Config.block ++ flushTrace Config.block booted.fb }

theorem watch_flushedOnce (n : Nat) (tx : List TxAnswer) (m : Nat) (dly : List DelayAnswer) :
    (observe Config.block (platform flushedOnce n tx m dly).out).link = .extended ∧
    (observe Config.block (platform flushedOnce n tx m dly).out).half = .nothing ∧
    (observe Config.block (platform flushedOnce n tx m dly).out).flushed = true := by
  obtain ⟨h1, h2, -⟩ := watch_init .start rfl
  obtain ⟨h3, h4, h5, -⟩ := watch_flush booted.fb _ h1 h2
  rw [← Observer.run_append] at h3 h4 h5
  exact ⟨(FarEnd.known_link _).trans h3, (FarEnd.known_half _).trans h4, (FarEnd.known_flushed _).trans h5⟩

/-- It is in a good state too. -/
theorem flushedOnce_inv (n : Nat) (tx : List TxAnswer) (m : Nat) (dly : List DelayAnswer) :
    Inv (platform flushedOnce n tx m dly) where
  fbCanonical := show Memory.wf [(33, 0x04#8), (1023, 0x01#8)] by decide
  idleMode := (booted_inv n tx m dly).idleMode
  busyMode := (booted_inv n tx m dly).busyMode
  selected := rfl
  csOfTrace := by
    rw [show (platform flushedOnce n tx m dly).out =
      initTrace Config.block ++ flushTrace Config.block booted.fb from rfl, traceCs_append, ← actTrace_flushActs,
      csAfter_actTrace, actCs_flushActs]
    rfl
  errorData := (booted_inv n tx m dly).errorData
  written := fun k r hk => by
    rcases List.mem_append.1 (show _ ∈ initTrace Config.block ++ flushTrace Config.block booted.fb from hk) with hk | hk
    · exact (booted_inv n tx m dly).written k r hk
    · rw [← actTrace_flushActs] at hk
      obtain ⟨q, hq⟩ := mem_actTrace_tx _ k r hk
      exact written_flushCalls _ _ q k (by simpa [flushActs_eq] using hq)
  farEndUninit := fun _ h => by simp [platform, flushedOnce, booted] at h
  farEndExtended := fun _ _ => (watch_flushedOnce n tx m dly).1
  farEndAtRest := fun _ => (watch_flushedOnce n tx m dly).2.1

/-! ### Witnesses: the hypotheses of each obligation met together -/

theorem witness_DecodeOfEncode : ∀ i ∈ [Instr.setPixel (-32768) 32767, .setPixel 32767 (-32768), .clearPixel 0 (-1),
    .getPixel 127 64, .clearAll, .rawRead 0, .rawRead 65535, .encode 0xFF#8 true true, .xlate 65535 0, .init, .flush],
    i.WellFormed := by decide

/-- For EncodeOfDecode and LegalWordsAreTableRows. -/
theorem witness_EncodeOfDecode : decode 0x0180007FFF#40 = .ok (.setPixel (-32768) 32767) ∧
    decode 0x0503FF0000#40 = .ok (.rawRead 1023) ∧ decode 0x1000A50003#40 = .ok (.encode 0xA5#8 true true) :=
  ⟨rfl, rfl, rfl⟩

/-- Every case of the condition, and its other side. -/
theorem witness_IllegalWordCondition : opField 0x2200000000#40 = 0x22#8 ∧
    (opField 0x0400000001#40 = 0x04#8 ∧ bField 0x0400000001#40 ≠ 0#16) ∧
    (opField 0x21FFFF0000#40 = 0x21#8 ∧ aField 0x21FFFF0000#40 ≠ 0#16) ∧
    (opField 0x0500008000#40 = 0x05#8 ∧ bField 0x0500008000#40 ≠ 0#16) ∧
    (opField 0x1000000004#40 = 0x10#8 ∧ (bField 0x1000000004#40).extractLsb' 2 14 ≠ 0#14) ∧
    (∃ i, decode 0x1000FF0003#40 = .ok i) := ⟨rfl, by decide, by decide, by decide, by decide, _, rfl⟩

theorem witness_StepRunsDecodedOperation :
    ({ booted with host := [.command 0x1100280003#40, .reset] } : State).busy = none ∧
    ({ booted with host := [.command 0x1100280003#40, .reset] } : State).host = .command 0x1100280003#40 :: [.reset] ∧
    decode 0x1100280003#40 = .ok (.xlate 40 3) ∧ decodeTableWord 40 0x1100280003 = some (.xlate 40 3) :=
  ⟨rfl, rfl, rfl, rfl⟩

theorem witness_IllegalWordAnswered :
    ({ booted with host := [.command 0x2000000001#40] } : State).busy = none ∧
    ({ booted with host := [.command 0x2000000001#40] } : State).host = .command 0x2000000001#40 :: [] ∧
    decode 0x2000000001#40 = .error (.reservedNotZero 0x20#8) := ⟨rfl, rfl, rfl⟩

theorem witness_IdleBlockWaitsAndStuckBlockStops : (booted.busy = none ∧ booted.host = []) ∧
    ({ booted with busy := some (.addrSettle 5), cs := true } : State).busy = some (.addrSettle 5) ∧
    ∀ rest, ({ booted with busy := some (.addrSettle 5), cs := true } : State).host ≠ .reset :: rest :=
  ⟨⟨rfl, rfl⟩, rfl, fun rest => by simp [booted]⟩

theorem witness_ResetMoveRestoresReset :
    ({ booted with busy := some (.addrSettle 5), host := [.reset, .command 0#40] } : State).host =
      .reset :: [.command 0#40] := rfl

/-- For RunIsIteratedStep: a run that is over. -/
theorem witness_RunIsIteratedStep : booted.host = [] ∧ RunOver [.reset] booted State.reset := ⟨rfl, rfl⟩

/-- A run whose INIT never returns from its first write is not over (70_reset_and_hazards.md R143). -/
theorem test_run_not_over :
    runMoves [.command 0x2000000000#40] (platform State.reset 0 [.never] 0 []) =
      .fault (.portNeverReturned (.initSend .funcBasic)) := rfl

/-- The same with a reset after it is over, at the reset values (R129, R130; log 23). -/
theorem test_run_over_after_reset :
    result (runMoves [.command 0x2000000000#40, .reset] (platform State.reset 0 [.never] 0 [])) =
      some State.reset := rfl

/-- For SetPixelResult, ClearPixelResult and GetPixelResult: both ends of both ranges. -/
theorem witness_onCanvas : (0 ≤ (0 : Int) ∧ (0 : Int) < 128) ∧ (0 ≤ (127 : Int) ∧ (127 : Int) < 128) ∧
    (0 ≤ (0 : Int) ∧ (0 : Int) < 64) ∧ (0 ≤ (63 : Int) ∧ (63 : Int) < 64) := by decide

/-- Just off each edge. -/
theorem witness_OffCanvasIgnored : ∀ p ∈ [((-1 : Int), (0 : Int)), (128, 0), (0, -1), (127, 64)],
    ¬(0 ≤ p.1 ∧ p.1 < 128 ∧ 0 ≤ p.2 ∧ p.2 < 64) := by decide

/-- The first clause holds up to 1023, the second from 1024. -/
theorem witness_RawReadResult : ((1023 : ByteIndex).val = 1023 ∧ ¬1024 ≤ (1023 : ByteIndex).val) ∧ 1024 ≤ 1024 := by
  decide

theorem witness_ClearAllResult : opField 0x0400000000#40 = 0x04#8 ∧ opField 0x0400010000#40 = 0x04#8 ∧
    State.reset.fb.wf ∧ ∀ i : ByteIndex, memRead1 State.reset.fb i = 0x00#8 :=
  ⟨rfl, rfl, by decide, fun _ => rfl⟩

theorem witness_PixelWritesCommute : booted.fb.wf ∧ ((0, 0) : Column × Row) ≠ (127, 63) ∧
    ((13, 2) : Column × Row) = (13, 2) ∧ true = true := by decide

theorem witness_WordViewAgrees : (0 : Column).val = 16 * (0 : Group).val + (0 : Fin 16).val ∧
    (127 : Column).val = 16 * (7 : Group).val + (15 : Fin 16).val := by decide

theorem witness_FramebufferOpsDoNoIo : ∀ i ∈ [Instr.setPixel 0 0, .clearPixel 127 63, .getPixel (-1) 0, .clearAll,
    .rawRead 1024], isFramebuffer i = true := by decide

/-- Two items at one coordinate, one off the canvas; and one that no command word can carry. -/
theorem witness_DrawAppliesItemsInOrder : booted.busy = none ∧ booted.host = [] ∧
    (∀ d ∈ [DrawItem.mk 0 0 true, ⟨0, 0, false⟩, ⟨-32768, 32767, true⟩], Sext16 d.x ∧ Sext16 d.y) ∧
    ¬Sext16 (DrawItem.mk 65536 0 true).x := ⟨rfl, rfl, by decide, by decide⟩

/-- An item at (65536, 0) does not light (0, 0): no word is presented for it (log 22). -/
theorem test_draw_beyond_16_bits : present (draw [⟨65536, 0, true⟩, ⟨1, 0, true⟩]) = [.command 0x0100010000#40] := rfl

theorem witness_RawBytesReadsWholeFb : booted.busy = none ∧ booted.host = [] := ⟨rfl, rfl⟩

/-- For PacketStructure and PacketRoundTrip: the block's parameters, and those with the flag positions exchanged. -/
theorem witness_parameters : Config.block.wf ∧ ({ Config.block with rwPos := 1, rsPos := 2 } : Params).wf ∧
    decodePacket Config.block ⟨0xFA#8, 0xA0#8, 0x50#8⟩ = some ⟨0xA5#8, true, false⟩ ∧
    encodePacket Config.block 0xA5#8 true false = encodePacket Config.block 0xA5#8 true false :=
  ⟨block_wf, ⟨.inr ⟨rfl, rfl⟩, block_wf.2⟩, rfl, rfl⟩

/-- Both ends of each clause's range. -/
theorem witness_XlateResult : ((0 < 32 ∧ 0 < 8) ∧ (31 < 32 ∧ 7 < 8)) ∧
    ((32 ≤ 32 ∧ 32 < 64 ∧ 0 < 8) ∧ (32 ≤ 63 ∧ 63 < 64 ∧ 7 < 8)) ∧
    ((64 ≤ 64 ∨ 8 ≤ 0) ∧ (64 ≤ 0 ∨ 8 ≤ 8) ∧ ¬(64 ≤ 63 ∨ 8 ≤ 7)) := by decide

theorem witness_InitSucceeds : (platform State.reset 3 [] 3 []).mode = .uninit ∧
    (platform State.reset 3 [] 3 []).TransportOk 3 ∧ (platform State.reset 3 [] 3 []).DelaysReturn 3 :=
  ⟨rfl, platform_ok _ _ _ _ _, platform_returns _ _ _ _ _⟩

/-- Each command can be the one that fails. -/
theorem witness_InitFails : ∀ k : Fin 3, ∃ s : State, s.mode = .uninit ∧ s.TransportOk k.val ∧ s.DelaysReturn k.val ∧
    s.txAnswer k.val = .answered .fail := fun k =>
  ⟨platform State.reset k.val [.answered .fail] k.val [], rfl, platform_ok _ _ _ _ _, platform_returns _ _ _ _ _, platform_tx ..⟩

theorem witness_ModePreconditions : booted.mode ≠ .uninit ∧ State.reset.mode ≠ .extgfx ∧
    ({ booted with mode := .basic } : State).mode ≠ .uninit ∧ ({ booted with mode := .basic } : State).mode ≠ .extgfx := by
  decide

theorem witness_FlushSucceeds : (platform booted 1152 [] (flushDelays Config.block) []).mode = .extgfx ∧
    (platform booted 1152 [] (flushDelays Config.block) []).TransportOk 1152 ∧
    (platform booted 1152 [] (flushDelays Config.block) []).DelaysReturn (flushDelays Config.block) :=
  ⟨rfl, platform_ok _ _ _ _ _, platform_returns _ _ _ _ _⟩

/-- Any packet of the 1152 can be the one that fails: the first, the first of row 4, the last. -/
theorem witness_FlushFails : ∀ k ∈ [0, 72, 1151], ∃ (s : State) (pkt : Packet), s.mode = .extgfx ∧
    (flushPackets Config.block s.fb)[k]? = some pkt ∧ s.TransportOk k ∧
    s.DelaysReturn (dlyCount (cutBefore k (flushTrace Config.block s.fb))) ∧ s.txAnswer k = .answered .fail := by
  intro k hk
  have h : k < (flushPackets Config.block booted.fb).length := by
    rw [← actPackets_flushActs, length_actPackets, sends_flushActs]
    simp only [List.mem_cons, List.not_mem_nil, or_false] at hk
    omega
  exact ⟨platform booted k [.answered .fail] (dlyCount (cutBefore k (flushTrace Config.block booted.fb))) [], _, rfl,
    List.getElem?_eq_getElem h, platform_ok _ _ _ _ _, platform_returns _ _ _ _ _, platform_tx ..⟩

/-- Two blocks that agree in FB, MODE and the platform's answers and differ in what they sent and answered. -/
theorem witness_FlushDependsOnlyOnFb : booted.mode = .extgfx ∧ booted.busy = none ∧
    ({ booted with out := [], rsp := [], cs := true } : State).mode = .extgfx ∧
    ({ booted with out := [], rsp := [], cs := true } : State).busy = none ∧
    booted.fb = ({ booted with out := [], rsp := [], cs := true } : State).fb ∧
    booted.tx = ({ booted with out := [], rsp := [], cs := true } : State).tx ∧
    booted.dly = ({ booted with out := [], rsp := [], cs := true } : State).dly :=
  ⟨rfl, rfl, rfl, rfl, rfl, rfl, rfl⟩

/-- Each send and each settle delay of INIT can be the one that never returns. -/
theorem witness_StalledInitStaysInProgress : ∀ k : Fin 3,
    (∃ s : State, s.mode = .uninit ∧ s.DelaysReturn k.val ∧ s.TransportOk k.val ∧ s.txAnswer k.val = .never) ∧
    ∃ s : State, s.mode = .uninit ∧ s.DelaysReturn k.val ∧ s.TransportOk (k.val + 1) ∧ s.delayAnswer k.val = .never :=
  fun k =>
    ⟨⟨platform State.reset k.val [.never] k.val [], rfl, platform_returns _ _ _ _ _, platform_ok _ _ _ _ _, platform_tx ..⟩,
      platform State.reset (k.val + 1) [] k.val [.never], rfl, platform_returns _ _ _ _ _, platform_ok _ _ _ _ _, platform_dly ..⟩

/-- Every `TxWrite` and every `Delay` of FLUSH can be the one that never returns: the points of rows 0, 4 and 63. -/
theorem witness_StalledFlushStaysInProgress (q : SeqPoint) :
    (∃ s : State, s.mode = .extgfx ∧ s.TransportOk q.sendsBefore ∧ s.DelaysReturn (q.delaysBefore Config.block) ∧
      s.txAnswer q.sendsBefore = .never ∧ (∀ rest, s.host ≠ .reset :: rest) ∧
      (q ∈ [.addrVertical 0, .addrHorizontal 4, .dataHigh 0 0, .dataLow 63 7] →
        q.mode = .extgfx ∧ ∃ k, q.packet Config.block s.fb = some k)) ∧
    (∃ s : State, s.mode = .extgfx ∧ s.TransportOk q.sendsBefore ∧ s.DelaysReturn (q.delaysBefore Config.block) ∧
      s.delayAnswer (q.delaysBefore Config.block) = .never ∧ (∀ rest, s.host ≠ .reset :: rest) ∧
      (q ∈ [.addrSettle 0, .addrSettle 63] → q.mode = .extgfx ∧ ∃ n, q.delay Config.block = some n)) := by
  refine ⟨⟨platform booted q.sendsBefore [.never] (q.delaysBefore Config.block) [], rfl, platform_ok _ _ _ _ _,
      platform_returns _ _ _ _ _, platform_tx .., fun rest => by simp [platform, booted], fun h => ?_⟩,
    ⟨platform booted q.sendsBefore [] (q.delaysBefore Config.block) [.never], rfl, platform_ok _ _ _ _ _,
      platform_returns _ _ _ _ _, platform_dly .., fun rest => by simp [platform, booted], fun h => ?_⟩⟩
  · simp only [List.mem_cons, List.not_mem_nil, or_false] at h
    rcases h with rfl | rfl | rfl | rfl <;> exact ⟨rfl, _, rfl⟩
  · simp only [List.mem_cons, List.not_mem_nil, or_false] at h
    rcases h with rfl | rfl <;> exact ⟨rfl, _, rfl⟩

/-- The numbers of the calls at those points, counted by hand from 43_sequencer.md R107, with no delay after a word or
a row and with both. -/
theorem test_seqPoints : (SeqPoint.addrVertical 4).sendsBefore = 72 ∧ (SeqPoint.dataLow 63 7).sendsBefore = 1151 ∧
    (SeqPoint.addrSettle 63).delaysBefore Config.defaults = 63 ∧
    (SeqPoint.rowSettle 63).delaysBefore { Config.defaults with tDataSettle := 1, tRowSettle := 1 } = 639 := by decide

/-- With the defaults a FLUSH takes the 64 delays after the address-sets and no other (95_test_vectors.md, the totals of
the first program). -/
theorem test_defaults : Config.defaults.tDataSettle = 0 ∧ Config.defaults.tRowSettle = 0 ∧
    flushDelays Config.defaults = 64 := ⟨rfl, rfl, rfl⟩

theorem witness_FlushEndsInOneOfThreeWays : booted.mode = .extgfx ∧ booted.busy = none := ⟨rfl, rfl⟩

theorem witness_ConstructResult : (platform booted 3 [] 3 []).TransportOk 3 ∧ (platform booted 3 [] 3 []).DelaysReturn 3 ∧
    ∀ k : Fin 3, (platform booted k.val [.answered .fail] k.val []).TransportOk k.val ∧
      (platform booted k.val [.answered .fail] k.val []).DelaysReturn k.val ∧
      (platform booted k.val [.answered .fail] k.val []).txAnswer k.val = .answered .fail :=
  ⟨platform_ok _ _ _ _ _, platform_returns _ _ _ _ _, fun _ => ⟨platform_ok _ _ _ _ _, platform_returns _ _ _ _ _, platform_tx ..⟩⟩

theorem witness_StepKeepsInvariant :
    Inv (platform booted 0 [] 0 []) ∧ step (platform booted 0 [] 0 []) = .next (platform booted 0 [] 0 []) :=
  ⟨booted_inv .., rfl⟩

/-- A reset of the booted block, and an INIT that succeeds. -/
theorem witness_ModeTransitions :
    (∃ t, step { booted with host := [.reset] } = .next t ∧ t.mode ≠ booted.mode) ∧
    ∃ t, step { platform State.reset 3 [] 3 [] with host := [.command 0x2000000000#40] } = .next t ∧
      t.mode ≠ (platform State.reset 3 [] 3 []).mode := by
  refine ⟨⟨_, rfl, Mode.noConfusion⟩, ⟨_, rfl, fun h => ?_⟩⟩
  exact Mode.noConfusion (show Mode.extgfx = Mode.uninit from h)

theorem witness_OnlySequencerDoesIo : ∀ i ∈ [Instr.setPixel 0 0, .clearPixel 128 0, .getPixel 0 0, .clearAll,
    .rawRead 0, .encode 0#8 false false, .xlate 64 8], isSequencer i = false := by decide

theorem witness_OnlyWritersTouchFb : (∀ i ∈ [Instr.getPixel 0 0, .rawRead 0, .encode 0#8 false false, .xlate 0 0, .init,
    .flush], writesFb i = false) ∧ ((Instr.init = .init ∨ (∃ v rs rw, Instr.init = .encode v rs rw) ∨
    ∃ r g, Instr.init = .xlate r g)) := ⟨by decide, .inl rfl⟩

theorem witness_TraceOnlyGrowsAndIsNeverRead : ∃ t, step booted = .next t := ⟨_, rfl⟩

theorem witness_OneResponsePerOperation : booted.busy = none := rfl

/-- A refused operation, an operand out of range, and a failed write. -/
theorem witness_ErrorsArePrecise :
    (∃ t, booted.busy = none ∧ exec .init booted = .next t ∧ t.rsp = booted.rsp ++ [⟨.alreadyInitialized, 0#24⟩]) ∧
    (∃ t, booted.busy = none ∧ exec (.xlate 64 0) booted = .next t ∧
      t.rsp = booted.rsp ++ [⟨.preconditionViolation, 0#24⟩]) ∧
    (exec .flush (platform booted 0 (.answered .fail :: List.replicate 1152 (.answered .ok))
      (flushDelays Config.block) []) = .next failedFirst ∧
      failedFirst.rsp = booted.rsp ++ [⟨.transportError, 0#24⟩]) ∧ Status.transportError ≠ .ok :=
  ⟨⟨_, rfl, rfl, rfl⟩, ⟨_, rfl, rfl, rfl⟩, ⟨rfl, rfl⟩, Status.noConfusion⟩

theorem witness_PanelShowsFramebuffer : ∃ s : State, Inv s ∧ s.busy = none ∧ s.mode = .extgfx ∧ s.TransportOk 1152 ∧
    s.DelaysReturn (flushDelays Config.block) :=
  ⟨platform booted 1152 [] (flushDelays Config.block) [], booted_inv .., rfl, rfl, platform_ok _ _ _ _ _, platform_returns _ _ _ _ _⟩

/-- Any packet of any row, before a FLUSH has answered OK and after one. -/
theorem witness_FailedFlushLeavesMixedPanel : ∀ (r : Row) (j : Fin 18) (f : Bool), ∃ s : State, Inv s ∧
    s.busy = none ∧ s.mode = .extgfx ∧ s.TransportOk (18 * r.val + j.val) ∧
    s.DelaysReturn (flushDelays Config.block) ∧ s.txAnswer (18 * r.val + j.val) = .answered .fail ∧
    (observe Config.block s.out).flushed = f
  | r, j, false => ⟨platform booted (18 * r.val + j.val) [.answered .fail] (flushDelays Config.block) [], booted_inv ..,
      rfl, rfl, platform_ok _ _ _ _ _, platform_returns _ _ _ _ _, platform_tx .., rfl⟩
  | r, j, true => ⟨platform flushedOnce (18 * r.val + j.val) [.answered .fail] (flushDelays Config.block) [],
      flushedOnce_inv .., rfl, rfl, platform_ok _ _ _ _ _, platform_returns _ _ _ _ _, platform_tx ..,
      (watch_flushedOnce ..).2.2⟩

/-- The first packet of row 0 and the last of row 63, before a FLUSH has answered OK and after one. -/
theorem witness_StalledFlushLeavesMixedPanel (f : Bool) :
    ∀ p ∈ [(SeqPoint.addrVertical 0, (0 : Row)), (.dataLow 63 7, 63)], ∃ s : State, Inv s ∧ s.busy = none ∧
      s.mode = .extgfx ∧ p.1.mode = .extgfx ∧ p.1.packet Config.block s.fb ≠ none ∧
      p.1.sendsBefore / 18 = p.2.val ∧ s.TransportOk p.1.sendsBefore ∧
      s.DelaysReturn (p.1.delaysBefore Config.block) ∧ s.txAnswer p.1.sendsBefore = .never ∧
      (observe Config.block s.out).flushed = f := by
  intro p hp
  have h : p.1.mode = .extgfx ∧ (∀ fb, p.1.packet Config.block fb ≠ none) ∧ p.1.sendsBefore / 18 = p.2.val := by
    simp only [List.mem_cons, List.not_mem_nil, or_false] at hp
    rcases hp with rfl | rfl <;> exact ⟨rfl, fun fb => Option.some_ne_none _, rfl⟩
  cases f with
  | false => exact ⟨platform booted p.1.sendsBefore [.never] (p.1.delaysBefore Config.block) [], booted_inv .., rfl, rfl,
      h.1, h.2.1 _, h.2.2, platform_ok _ _ _ _ _, platform_returns _ _ _ _ _, platform_tx .., rfl⟩
  | true => exact ⟨platform flushedOnce p.1.sendsBefore [.never] (p.1.delaysBefore Config.block) [], flushedOnce_inv ..,
      rfl, rfl, h.1, h.2.1 _, h.2.2, platform_ok _ _ _ _ _, platform_returns _ _ _ _ _, platform_tx ..,
      (watch_flushedOnce ..).2.2⟩

/-- A FLUSH whose first packet fails, then a transport that answers well. -/
theorem witness_RetriedFlushConverges : ∃ s t : State, Inv s ∧ s.busy = none ∧ s.mode = .extgfx ∧
    exec .flush s = .next t ∧ t.rsp = s.rsp ++ [⟨.transportError, 0#24⟩] ∧ t.TransportOk 1152 ∧
    t.DelaysReturn (flushDelays Config.block) := by
  refine ⟨platform booted 0 (.answered .fail :: List.replicate 1152 (.answered .ok)) (flushDelays Config.block) [],
    failedFirst, booted_inv .., rfl, rfl, test_flush_first_fails, rfl, fun k hk => ?_,
    platform_returns booted 0 [] (flushDelays Config.block) []⟩
  exact State.txAnswer_of_script _ k _ (List.getElem?_replicate_of_lt hk)

theorem witness_FirstFlushBlanksPanel : (platform booted 1155 [] (3 + flushDelays Config.block) []).TransportOk 1155 ∧
    (platform booted 1155 [] (3 + flushDelays Config.block) []).DelaysReturn (3 + flushDelays Config.block) :=
  ⟨platform_ok _ _ _ _ _, platform_returns _ _ _ _ _⟩

end Sys2Proof.Tests
end

section
/-! The state of the block (10_state.md): the trace is only appended to, and no operation reads it (R23). -/

namespace Sys2Proof.Machine

/-- No operation reads the trace: on any other trace it appends the same events and leaves every other field as it
would (10_state.md R23). `exec_context` with the host's moves and the responses kept. -/
theorem exec_appends_same_events (i : Instr) (s : State) (out : List Event) :
    ∃ t events, exec i s = .next t ∧ t.out = s.out ++ events ∧
      exec i { s with out := out } = .next { t with out := out ++ events } := by
  obtain ⟨t, events, new, hexec, hhost, hout, hrsp, hcontext⟩ := exec_context i s
  refine ⟨t, events, hexec, hout, ?_⟩
  simpa only [State.inContext, hhost, hrsp] using hcontext s.host out s.rsp

/-- An operation keeps the trace it found as a prefix. -/
theorem out_prefix_of_exec {i : Instr} {s t : State} (h : exec i s = .next t) : s.out <+: t.out := by
  obtain ⟨u, events, hexec, hout, -⟩ := exec_appends_same_events i s s.out
  obtain rfl : u = t := Host.Outcome.next.inj (hexec.symm.trans h)
  exact ⟨events, hout.symm⟩

/-- A step keeps the trace as a prefix, or is a reset, which empties it. -/
theorem out_prefix_or_reset_of_step {s t : State} (h : step s = .next t) :
    s.out <+: t.out ∨ ∃ rest, s.host = .reset :: rest ∧ t.out = [] := by
  obtain ⟨rest, hhost, rfl⟩ | ⟨-, -, rfl⟩ | ⟨w, rest, i, -, -, -, hexec⟩ | ⟨w, rest, r, -, -, -, rfl⟩ := step_cases h
  case inl => exact .inr ⟨rest, hhost, rfl⟩
  case inr.inl => exact .inl List.prefix_rfl
  case inr.inr.inl => exact .inl (out_prefix_of_exec (s := { s with host := rest }) hexec)
  case inr.inr.inr => exact .inl List.prefix_rfl

/-- Settles O52: the trace by the cases of a step, its independence by the frame of `exec`. -/
theorem traceOnlyGrowsAndIsNeverRead : Obligations.TraceOnlyGrowsAndIsNeverRead :=
  ⟨State.reset_out, fun _ _ => out_prefix_or_reset_of_step, exec_appends_same_events⟩

end Sys2Proof.Machine
end

section
/-! The nibble bytes of a packet (30_encoding.md R58). -/

namespace Sys2Proof.Machine

/-- Packet byte 2 keeps the low nibble of the value: shifted back it is `value & 0x0F` (30_encoding.md R58). -/
theorem lowNibble_shiftedBack (value : Byte) : value <<< 4 >>> 4 = value &&& 0x0F#8 := by
  revert value; decide

/-- The value is its high nibble, kept in place, and its low nibble, shifted up and back (30_encoding.md R58). -/
theorem highNibble_or_lowNibble (value : Byte) :
    (value &&& 0xF0#8 &&& 0xF0#8) ||| (value <<< 4 >>> 4) = value :=
  calc (value &&& 0xF0#8 &&& 0xF0#8) ||| (value <<< 4 >>> 4)
    _ = (value &&& 0xF0#8) ||| (value &&& 0x0F#8) := by
      rw [BitVec.and_assoc, BitVec.and_self, lowNibble_shiftedBack]
    _ = value &&& (0xF0#8 ||| 0x0F#8) := BitVec.and_or_distrib_left.symm
    _ = value := BitVec.and_allOnes

/-- Settles O29: byte 2 as a concatenation by the library, the zero bits by `nibbles`, the value by its two masks. -/
theorem nibbleBytes : Obligations.NibbleBytes := by
  intro p value rs rw
  obtain ⟨highZero, lowZero, -⟩ := nibbles value
  have lowNibble : value <<< 4 = value.extractLsb' 0 4 ++ 0#4 :=
    BitVec.shiftLeft_eq_concat_of_lt (show 4 < 8 by decide)
  exact ⟨encodePacket p value rs rw, rfl, rfl, rfl, lowNibble, highZero, lowZero,
    (highNibble_or_lowNibble value).symm⟩

end Sys2Proof.Machine
end

section
/-! The framebuffer (40_framebuffer.md): the addressing function (R70), a pixel written and read back (R78), operations
that are functions of FB alone (R82), and the sequencer, which never writes FB (R83). -/

namespace Sys2Proof.Machine

/-! ### The addressing function -/

/-- The mask has no bit but the pixel's own (40_framebuffer.md R70). -/
theorem mask_getLsbD_of_ne {c : Column} {b : Fin 8} (h : b ≠ bitIndex c) : (mask c).getLsbD b = false := by
  rw [mask_getLsbD, decide_eq_false h]

/-- Settles O13: the formulas are the definitions, the bits of the mask `mask_getLsbD`. -/
theorem addressingFormula : Obligations.AddressingFormula := by
  refine ⟨fun c r => ⟨rfl, rfl, rfl, ?_, fun _ => mask_getLsbD_of_ne, fun _ => rfl⟩, by decide⟩
  rw [mask_getLsbD, decide_eq_true rfl]

/-! ### A pixel written and read back -/

/-- GET_PIXEL on the canvas answers 3 for a pixel that is on and 2 for one that is off, and changes nothing
(40_framebuffer.md R74). -/
theorem exec_getPixel_coe (c : Column) (r : Row) (s : State) :
    exec (.getPixel c.val r.val) s =
      .next { s with rsp := s.rsp ++ [⟨.ok, if pixel s.fb c r then 3#24 else 2#24⟩] } := by
  have data : ∀ on : Bool, pixelData true on = if on then 3#24 else 2#24 := by decide
  exact (execGetPixel_coe c r s).trans (by rw [data]; rfl)

/-- The addressed byte after a pixel is written: the mask joined to it or taken out of it (40_framebuffer.md R78). -/
theorem memRead1_drawItem_same (fb : Memory) (c : Column) (r : Row) (on : Bool) :
    memRead1 (if on then fbSetPixel fb c r else fbClearPixel fb c r) (byteIndex c r) =
      if on then memRead1 fb (byteIndex c r) ||| mask c else memRead1 fb (byteIndex c r) &&& (0xFF#8 - mask c) := by
  have complement : 0xFF#8 - mask c = ~~~mask c := BitVec.allOnes_sub_eq_not (mask c)
  rw [complement]
  cases on
  · exact (memRead1_memWrite1 ..).trans (if_pos rfl)
  · exact (memRead1_memWrite1 ..).trans (if_pos rfl)

/-- Every other byte is as before (40_framebuffer.md R78). -/
theorem memRead1_drawItem_other (fb : Memory) (c : Column) (r : Row) (on : Bool) {j : ByteIndex}
    (h : j ≠ byteIndex c r) :
    memRead1 (if on then fbSetPixel fb c r else fbClearPixel fb c r) j = memRead1 fb j := by
  cases on
  · exact (memRead1_memWrite1 ..).trans (if_neg h)
  · exact (memRead1_memWrite1 ..).trans (if_neg h)

/-- A pixel write followed by GET_PIXEL of the same coordinate, for both writes at once (40_framebuffer.md R78). -/
theorem drawItem_then_getPixel (c : Column) (r : Row) (on : Bool) (s : State) :
    ∃ t u, exec (DrawItem.op ⟨c.val, r.val, on⟩) s = .next t ∧ exec (.getPixel c.val r.val) t = .next u ∧
      u = { t with rsp := t.rsp ++ [⟨.ok, if on then 3#24 else 2#24⟩] } ∧
      (∀ c' r', (c', r') ≠ (c, r) → pixel u.fb c' r' = pixel s.fb c' r') ∧
      memRead1 u.fb (byteIndex c r) = (if on then memRead1 s.fb (byteIndex c r) ||| mask c
        else memRead1 s.fb (byteIndex c r) &&& (0xFF#8 - mask c)) ∧
      ∀ j, j ≠ byteIndex c r → memRead1 u.fb j = memRead1 s.fb j := by
  refine ⟨_, _, exec_drawItem c r on s, exec_getPixel_coe c r _, ?readBack, fun c' r' h => ?isolation,
    memRead1_drawItem_same s.fb c r on, fun j h => memRead1_drawItem_other s.fb c r on h⟩
  case readBack =>
    rw [State.answer_fb, State.setFb_fb, pixel_drawItem, if_pos rfl]
  case isolation =>
    exact (pixel_drawItem s.fb c r on c' r').trans (if_neg h)

/-- Settles O19: both halves are `drawItem_then_getPixel`, on and off. -/
theorem pixelWriteThenRead : Obligations.PixelWriteThenRead := fun c r s =>
  ⟨drawItem_then_getPixel c r true s, drawItem_then_getPixel c r false s⟩

/-! ### Functions of FB alone -/

/-- A framebuffer operation answers a status that its operands fix; the new FB and the answered DATA are functions of
FB alone, and nothing else changes (40_framebuffer.md R82). -/
theorem exec_of_framebuffer (i : Instr) (h : isFramebuffer i = true) :
    ∃ (e : Status) (newFb : Memory → Memory) (data : Memory → Data), ∀ s : State,
      exec i s = .next { s with fb := newFb s.fb, rsp := s.rsp ++ [⟨e, data s.fb⟩] } := by
  cases i with
  | setPixel x y =>
    simp only [exec, execSetPixel]
    cases pixelAt x y with
    | none => exact ⟨.ok, id, fun _ => 0#24, fun _ => rfl⟩
    | some p => exact ⟨.ok, (fbSetPixel · p.1 p.2), fun _ => 0#24, fun _ => rfl⟩
  | clearPixel x y =>
    simp only [exec, execClearPixel]
    cases pixelAt x y with
    | none => exact ⟨.ok, id, fun _ => 0#24, fun _ => rfl⟩
    | some p => exact ⟨.ok, (fbClearPixel · p.1 p.2), fun _ => 0#24, fun _ => rfl⟩
  | getPixel x y =>
    simp only [exec, execGetPixel]
    cases pixelAt x y with
    | none => exact ⟨.ok, id, fun _ => pixelData false false, fun _ => rfl⟩
    | some p => exact ⟨.ok, id, fun fb => pixelData true (pixel fb p.1 p.2), fun _ => rfl⟩
  | clearAll => exact ⟨.ok, fun _ => Memory.cleared, fun _ => 0#24, fun _ => rfl⟩
  | rawRead n =>
    simp only [exec, execRawRead]
    cases byteAt n with
    | none => exact ⟨.preconditionViolation, id, fun _ => 0#24, fun _ => rfl⟩
    | some k => exact ⟨.ok, id, fun fb => byteData (memRead1 fb k), fun _ => rfl⟩
  | encode | xlate | init | flush => cases h

/-- Settles O25: what is a function of FB alone touches no port, waits for nothing and does not see MODE. -/
theorem framebufferOpsDoNoIo : Obligations.FramebufferOpsDoNoIo := by
  intro i h
  obtain ⟨e, newFb, data, hexec⟩ := exec_of_framebuffer i h
  exact ⟨⟨e, fun s => ⟨_, _, hexec s, rfl, rfl, rfl, rfl, rfl, rfl, rfl, rfl⟩⟩,
    fun s m => ⟨_, hexec s, hexec { s with mode := m }⟩⟩

/-! ### The sequencer never writes FB -/

/-- INIT keeps FB: refused, successful, failed at a command, stuck in a send or in a settle delay
(40_framebuffer.md R83). -/
theorem exec_init_keeps_fb (s : State) : ∃ t, exec .init s = .next t ∧ t.fb = s.fb := by
  obtain ⟨-, refused⟩ | ⟨-, -, -, done⟩ | ⟨k, -, -, ⟨-, -, failed⟩ | ⟨-, -, stuckSend⟩ | ⟨-, -, stuckDelay⟩⟩ :=
    execInit_cases s
  · exact ⟨_, refused, rfl⟩
  · exact ⟨_, done, rfl⟩
  · exact ⟨_, failed, rfl⟩
  · exact ⟨_, stuckSend, rfl⟩
  · exact ⟨_, stuckDelay, rfl⟩

/-- FLUSH keeps FB: refused, successful, failed at a packet, stuck in a send or in a delay (40_framebuffer.md R83). -/
theorem exec_flush_keeps_fb (s : State) : ∃ t, exec .flush s = .next t ∧ t.fb = s.fb := by
  obtain ⟨-, refused⟩ | ⟨-, -, -, done⟩ | ⟨_, _, _, _, -, -, -, -, failed⟩ |
    ⟨_, _, _, _, -, -, -, -, -, stuckSend⟩ | ⟨_, _, _, _, -, -, -, -, -, stuckDelay⟩ := execFlush_cases s
  · exact ⟨_, refused, rfl⟩
  · exact ⟨_, done, rfl⟩
  · exact ⟨_, failed, rfl⟩
  · exact ⟨_, stuckSend, rfl⟩
  · exact ⟨_, stuckDelay, rfl⟩

/-- Settles O41: INIT and FLUSH each by the cases of what it can do. -/
theorem sequencerKeepsFb : Obligations.SequencerKeepsFb := by
  intro s
  obtain ⟨t, hinit, ht⟩ := exec_init_keeps_fb s
  obtain ⟨u, hflush, hu⟩ := exec_flush_keeps_fb s
  exact ⟨t, u, hinit, hflush, ht, hu⟩

end Sys2Proof.Machine
end

section
/-! Reset (70_reset_and_hazards.md): the reset values and the wait for the host's first operation (R130). -/

namespace Sys2Proof.Machine

/-- An idle block with no move of the host left waits: the step changes nothing (70_reset_and_hazards.md R143). -/
theorem step_waits {s : State} (hbusy : s.busy = none) (hhost : s.host = []) : step s = .next s := by
  simp only [step, hbusy, hhost]

/-- Settles O11: each field by its reset law, the wait because the block is idle after reset, whatever the platform's
feeds, and any first operation because none is refused or faults (`exec_next`). -/
theorem resetValues : Obligations.ResetValues :=
  ⟨memRead1_cleared, State.reset_mode, rfl, State.reset_busy, State.reset_rsp, State.reset_out,
    fun _ _ => ⟨step_waits State.reset_busy rfl, fun i _ => exec_next i _⟩⟩

end Sys2Proof.Machine
end

section
/-! The command word (30_encoding.md): the decoder, case by case, against the encoder and the opcode table. -/

namespace Sys2Proof

/-! ### What each `OP` value decodes to -/

section
variable {w : Cmd}

theorem decode_setPixel (h : opField w = 0x01#8) :
    decode w = .ok (.setPixel (sext16 (aField w)) (sext16 (bField w))) := by rw [decode, h]; rfl

theorem decode_clearPixel (h : opField w = 0x02#8) :
    decode w = .ok (.clearPixel (sext16 (aField w)) (sext16 (bField w))) := by rw [decode, h]; rfl

theorem decode_getPixel (h : opField w = 0x03#8) :
    decode w = .ok (.getPixel (sext16 (aField w)) (sext16 (bField w))) := by rw [decode, h]; rfl

theorem decode_clearAll (h : opField w = 0x04#8) : decode w = decodeN w .clearAll := by rw [decode, h]; rfl

theorem decode_rawRead (h : opField w = 0x05#8) : decode w = decodeI w := by rw [decode, h]; rfl

theorem decode_encode (h : opField w = 0x10#8) : decode w = decodeK w := by rw [decode, h]; rfl

theorem decode_xlate (h : opField w = 0x11#8) :
    decode w = .ok (.xlate (zext16 (aField w)) (zext16 (bField w))) := by rw [decode, h]; rfl

theorem decode_init (h : opField w = 0x20#8) : decode w = decodeN w .init := by rw [decode, h]; rfl

theorem decode_flush (h : opField w = 0x21#8) : decode w = decodeN w .flush := by rw [decode, h]; rfl

/-- The nine values of `OP` (30_encoding.md R54). -/
def knownOps : List Byte := [0x01#8, 0x02#8, 0x03#8, 0x04#8, 0x05#8, 0x10#8, 0x11#8, 0x20#8, 0x21#8]

theorem decode_unknown (h : opField w ∉ knownOps) : decode w = .error (.unknownOpcode (opField w)) := by
  have ne : ∀ n, BitVec.ofNat 8 n ∈ knownOps → (opField w).toNat ≠ n := fun n hn e => h (opField_of_toNat e ▸ hn)
  unfold decode
  split
  case h_10 => rfl
  all_goals exact absurd ‹_› (ne _ (by decide))

end

/-! ### The formats with a "must be 0" field -/

theorem decodeN_ok_iff (w : Cmd) (i j : Instr) :
    decodeN w i = .ok j ↔ (aField w = 0#16 ∧ bField w = 0#16) ∧ i = j := by
  unfold decodeN
  split <;> simp [*]

theorem decodeI_ok_iff (w : Cmd) (j : Instr) :
    decodeI w = .ok j ↔ bField w = 0#16 ∧ .rawRead (zext16 (aField w)) = j := by
  unfold decodeI
  split <;> simp [*]

theorem decodeK_ok_iff (w : Cmd) (j : Instr) :
    decodeK w = .ok j ↔ ((aField w).extractLsb' 8 8 = 0#8 ∧ (bField w).extractLsb' 2 14 = 0#14) ∧
      .encode ((aField w).extractLsb' 0 8) ((bField w).getLsbD 0) ((bField w).getLsbD 1) = j := by
  unfold decodeK
  split <;> simp [*]

/-! ### Decoding and encoding -/

/-- The fields of a word that decodes are those of the operation it decodes to (30_encoding.md R51, R53). -/
theorem fields_of_decode {w : Cmd} {i : Instr} (h : decode w = .ok i) :
    i.WellFormed ∧ opcode i = opField w ∧ operandA i = aField w ∧ operandB i = bField w := by
  by_cases hop : opField w ∈ knownOps
  case neg => rw [decode_unknown hop] at h; cases h
  have coordinates : ∀ a b : BitVec 16, decide (Sext16 (sext16 a) ∧ Sext16 (sext16 b)) = true := fun a b =>
    decide_eq_true ⟨sext16_range a, sext16_range b⟩
  have naturals : ∀ a b : BitVec 16, decide (Zext16 (zext16 a) ∧ Zext16 (zext16 b)) = true := fun a b =>
    decide_eq_true ⟨zext16_range a, zext16_range b⟩
  simp only [knownOps, List.mem_cons, List.not_mem_nil, or_false] at hop
  rcases hop with hop | hop | hop | hop | hop | hop | hop | hop | hop
  · cases (decode_setPixel hop).symm.trans h
    exact ⟨coordinates _ _, hop.symm, ofInt_sext16 _, ofInt_sext16 _⟩
  · cases (decode_clearPixel hop).symm.trans h
    exact ⟨coordinates _ _, hop.symm, ofInt_sext16 _, ofInt_sext16 _⟩
  · cases (decode_getPixel hop).symm.trans h
    exact ⟨coordinates _ _, hop.symm, ofInt_sext16 _, ofInt_sext16 _⟩
  · obtain ⟨⟨ha, hb⟩, rfl⟩ := (decodeN_ok_iff ..).1 ((decode_clearAll hop).symm.trans h)
    exact ⟨rfl, hop.symm, ha.symm, hb.symm⟩
  · obtain ⟨hb, rfl⟩ := (decodeI_ok_iff ..).1 ((decode_rawRead hop).symm.trans h)
    exact ⟨decide_eq_true (zext16_range _), hop.symm, ofNat_zext16 _, hb.symm⟩
  · obtain ⟨⟨ha, hb⟩, rfl⟩ := (decodeK_ok_iff ..).1 ((decode_encode hop).symm.trans h)
    obtain ⟨ea, eb⟩ := codec_fields _ _ ha hb
    exact ⟨rfl, hop.symm, ea, eb⟩
  · cases (decode_xlate hop).symm.trans h
    exact ⟨naturals _ _, hop.symm, ofNat_zext16 _, ofNat_zext16 _⟩
  · obtain ⟨⟨ha, hb⟩, rfl⟩ := (decodeN_ok_iff ..).1 ((decode_init hop).symm.trans h)
    exact ⟨rfl, hop.symm, ha.symm, hb.symm⟩
  · obtain ⟨⟨ha, hb⟩, rfl⟩ := (decodeN_ok_iff ..).1 ((decode_flush hop).symm.trans h)
    exact ⟨rfl, hop.symm, ha.symm, hb.symm⟩

/-- Settles O1: constructor by constructor, `opField_encode` picks the arm of the decoder, the operand fields are read
back by `sext16_ofInt`, `zext16_ofNat`, `codecA` and `codecB`. -/
theorem decodeOfEncode : Obligations.DecodeOfEncode := by
  intro i h
  cases i with
  | setPixel x y =>
    obtain ⟨hx, hy⟩ := of_decide_eq_true h
    rw [decode_setPixel (opField_encode _), aField_encode, bField_encode, operandA, operandB,
      sext16_ofInt x hx, sext16_ofInt y hy]
  | clearPixel x y =>
    obtain ⟨hx, hy⟩ := of_decide_eq_true h
    rw [decode_clearPixel (opField_encode _), aField_encode, bField_encode, operandA, operandB,
      sext16_ofInt x hx, sext16_ofInt y hy]
  | getPixel x y =>
    obtain ⟨hx, hy⟩ := of_decide_eq_true h
    rw [decode_getPixel (opField_encode _), aField_encode, bField_encode, operandA, operandB,
      sext16_ofInt x hx, sext16_ofInt y hy]
  | clearAll => exact (decode_clearAll (opField_encode _)).trans ((decodeN_ok_iff ..).2 ⟨⟨rfl, rfl⟩, rfl⟩)
  | rawRead n =>
    refine (decode_rawRead (opField_encode _)).trans ((decodeI_ok_iff ..).2 ⟨bField_encode _, ?_⟩)
    rw [aField_encode]
    exact congrArg Instr.rawRead (zext16_ofNat n (of_decide_eq_true h))
  | encode value rs rw =>
    obtain ⟨highZero, low⟩ := codecA value
    obtain ⟨unusedZero, rsBit, rwBit⟩ := codecB rs rw
    refine (decode_encode (opField_encode _)).trans ((decodeK_ok_iff ..).2 ?_)
    simp only [aField_encode, bField_encode, operandA, operandB]
    exact ⟨⟨highZero, unusedZero⟩, by rw [low, rsBit, rwBit]⟩
  | xlate r g =>
    obtain ⟨hr, hg⟩ := of_decide_eq_true h
    rw [decode_xlate (opField_encode _), aField_encode, bField_encode, operandA, operandB,
      zext16_ofNat r hr, zext16_ofNat g hg]
  | init => exact (decode_init (opField_encode _)).trans ((decodeN_ok_iff ..).2 ⟨⟨rfl, rfl⟩, rfl⟩)
  | flush => exact (decode_flush (opField_encode _)).trans ((decodeN_ok_iff ..).2 ⟨⟨rfl, rfl⟩, rfl⟩)

/-- Settles O2: the word is its three fields, and those are the operation's. -/
theorem encodeOfDecode : Obligations.EncodeOfDecode := by
  intro w i h
  obtain ⟨hwf, hop, ha, hb⟩ := fields_of_decode h
  refine ⟨hwf, ?_⟩
  rw [encode, hop, ha, hb, packCmd_fields]

/-- Settles O5: the decoder, evaluated on each word. -/
theorem sampleWordsDecode : Obligations.SampleWordsDecode := ⟨rfl, rfl, rfl, rfl, rfl, rfl, rfl, rfl, rfl, rfl⟩

/-! ### The rows of the opcode table -/

/-- Every row compares the whole `OP` byte (opcode_table.json). -/
theorem opField_of_matches {t : TableRow} {w : Cmd} (ht : t ∈ opcodeTable) (h : t.Matches w) :
    opField w = opField t.pattern := by
  have full : ∀ u ∈ opcodeTable, opField u.mask = BitVec.allOnes 8 := by decide
  have hop := ((matches_iff t w).1 h).1
  rwa [full t ht, BitVec.and_allOnes] at hop

/-- A word decodes to the operation of a row it matches (30_encoding.md R54). -/
theorem row_of_decode {w : Cmd} {i : Instr} (h : decode w = .ok i) :
    ∃ t ∈ opcodeTable, t.Matches w ∧ t.mnemonic = i.mnemonic := by
  obtain ⟨-, rfl⟩ := encodeOfDecode w i h
  have row : Laws.EncodeRow.Statement i := by
    cases i with
    | setPixel x y => exact Laws.EncodeRow.setPixel x y
    | clearPixel x y => exact Laws.EncodeRow.clearPixel x y
    | getPixel x y => exact Laws.EncodeRow.getPixel x y
    | clearAll => exact Laws.EncodeRow.clearAll
    | rawRead n => exact Laws.EncodeRow.rawRead n
    | encode value rs rw => exact Laws.EncodeRow.encode value rs rw
    | xlate r g => exact Laws.EncodeRow.xlate r g
    | init => exact Laws.EncodeRow.init
    | flush => exact Laws.EncodeRow.flush
  obtain ⟨t, ht, hm, hmatch, -⟩ := row
  exact ⟨t, ht, hmatch, hm⟩

/-- Bits that a mask covers are 0 when the masked field is. -/
theorem extractLsb'_eq_zero_of_and {a m : BitVec 16} {start len : Nat}
    (hm : m.extractLsb' start len = BitVec.allOnes len) (h : a &&& m = 0#16) : a.extractLsb' start len = 0#len :=
  calc a.extractLsb' start len
    _ = (a &&& m).extractLsb' start len := by rw [BitVec.extractLsb'_and, hm, BitVec.and_allOnes]
    _ = 0#len := by rw [h, BitVec.extractLsb'_zero]

/-- A word that matches a row of the opcode table is legal (30_encoding.md R54, R55). -/
theorem decode_of_matches {t : TableRow} {w : Cmd} (ht : t ∈ opcodeTable) (h : t.Matches w) :
    ∃ i, decode w = .ok i := by
  have hop := opField_of_matches ht h
  obtain ⟨-, ha, hb⟩ := (matches_iff t w).1 h
  have whole : ∀ a m : BitVec 16, m = BitVec.allOnes 16 → a &&& m = 0#16 → a = 0#16 := fun a m hm hz => by
    rwa [hm, BitVec.and_allOnes] at hz
  simp only [opcodeTable, List.cons_append, List.nil_append, List.mem_cons, List.not_mem_nil, or_false] at ht
  rcases ht with rfl | rfl | rfl | rfl | rfl | rfl | rfl | rfl | rfl
  · exact ⟨_, decode_setPixel hop⟩
  · exact ⟨_, decode_clearPixel hop⟩
  · exact ⟨_, decode_getPixel hop⟩
  · exact ⟨_, (decode_clearAll hop).trans ((decodeN_ok_iff ..).2 ⟨⟨whole _ _ rfl ha, whole _ _ rfl hb⟩, rfl⟩)⟩
  · exact ⟨_, (decode_rawRead hop).trans ((decodeI_ok_iff ..).2 ⟨whole _ _ rfl hb, rfl⟩)⟩
  · exact ⟨_, (decode_encode hop).trans ((decodeK_ok_iff ..).2
      ⟨⟨extractLsb'_eq_zero_of_and rfl ha, extractLsb'_eq_zero_of_and rfl hb⟩, rfl⟩)⟩
  · exact ⟨_, decode_xlate hop⟩
  · exact ⟨_, (decode_init hop).trans ((decodeN_ok_iff ..).2 ⟨⟨whole _ _ rfl ha, whole _ _ rfl hb⟩, rfl⟩)⟩
  · exact ⟨_, (decode_flush hop).trans ((decodeN_ok_iff ..).2 ⟨⟨whole _ _ rfl ha, whole _ _ rfl hb⟩, rfl⟩)⟩

/-- Settles O3: two rows that one word matches have the same `OP` byte, and the rows' `OP` bytes differ pairwise. -/
theorem legalWordsAreTableRows : Obligations.LegalWordsAreTableRows := by
  have distinct : opcodeTable.Pairwise fun a b => opField a.pattern ≠ opField b.pattern := by decide
  refine ⟨distinct.imp_of_mem ?disjoint, fun w => ⟨?legal, ?row⟩, fun w i => row_of_decode⟩
  case disjoint =>
    exact fun ha hb hne w ⟨hwa, hwb⟩ => hne ((opField_of_matches ha hwa).symm.trans (opField_of_matches hb hwb))
  case legal =>
    rintro ⟨i, h⟩
    obtain ⟨t, ht, hmatch, -⟩ := row_of_decode h
    exact ⟨t, ht, hmatch⟩
  case row =>
    rintro ⟨t, ht, h⟩
    exact decode_of_matches ht h

/-- Settles O4: an unknown `OP` is rejected, and a known one exactly when its format's check fails. -/
theorem illegalWordCondition : Obligations.IllegalWordCondition := by
  intro w
  have rejected : (∃ r, decode w = .error r) ↔ ¬∃ i, decode w = .ok i := by cases decode w <;> simp
  by_cases hop : opField w ∈ knownOps
  case neg => exact iff_of_true ⟨_, decode_unknown hop⟩ (.inl hop)
  rw [rejected]
  simp only [knownOps, List.mem_cons, List.not_mem_nil, or_false] at hop
  rcases hop with hop | hop | hop | hop | hop | hop | hop | hop | hop
  · simp [decode_setPixel hop, hop]
  · simp [decode_clearPixel hop, hop]
  · simp [decode_getPixel hop, hop]
  · simp [decode_clearAll hop, decodeN_ok_iff, hop, imp_iff_not_or]
  · simp [decode_rawRead hop, decodeI_ok_iff, hop]
  · simp [decode_encode hop, decodeK_ok_iff, hop, imp_iff_not_or]
  · simp [decode_xlate hop, hop]
  · simp [decode_init hop, decodeN_ok_iff, hop, imp_iff_not_or]
  · simp [decode_flush hop, decodeN_ok_iff, hop, imp_iff_not_or]

end Sys2Proof
end

section
/-! The step (70_reset_and_hazards.md R143, R144): what a command word, an illegal word, a reset and a stuck port call
make of the block; the response word (30_encoding.md R52). -/

namespace Sys2Proof.Machine

/-- Settles O6: the fields of a concatenation, and the codes. -/
theorem responseWordLayout : Obligations.ResponseWordLayout := by
  refine ⟨fun r => ⟨?_, ?_⟩, rfl, rfl, rfl, rfl, rfl, rfl⟩
  · exact BitVec.extractLsb'_append_eq_left
  · exact BitVec.extractLsb'_append_eq_right

/-- An idle block runs the operation of a legal word (30_encoding.md R50). -/
theorem step_command {s : State} {w : Cmd} {rest : List HostMove} {i : Instr} (hb : s.busy = none)
    (hh : s.host = .command w :: rest) (hd : decode w = .ok i) : step s = exec i { s with host := rest } := by
  simp only [step, hb, hh, hd]

/-- A block in a port call that never returns has no step but a reset (60_exceptions.md R119). -/
theorem step_stuck {s : State} {q : SeqPoint} (hb : s.busy = some q) (hh : ∀ rest, s.host ≠ .reset :: rest) :
    step s = .fault (.portNeverReturned q) := by
  cases hhost : s.host with
  | nil => simp only [step, hb, hhost]
  | cons m rest =>
    cases m with
    | command w => simp only [step, hb, hhost]
    | reset => exact absurd hhost (hh rest)

/-- Settles O7: `withFetchWord` places the word that `decodeTableWord` decodes. -/
theorem stepRunsDecodedOperation : Obligations.StepRunsDecodedOperation := by
  refine ⟨fun s w rest i => step_command, fun s nbits w i h => ?_⟩
  have hd : decode (tableWord nbits w) = .ok i := by
    unfold decodeTableWord at h
    cases hw : decode (tableWord nbits w) with
    | error r => simp [hw, Except.toOption] at h
    | ok j => simpa [hw, Except.toOption] using h
  exact step_command (s := s.withFetchWord nbits w) rfl rfl hd

/-- Settles O8: the step raises ILLEGAL_OP. -/
theorem illegalWordAnswered : Obligations.IllegalWordAnswered := by
  intro s w rest r hb hh hd
  simp only [step, hb, hh, hd]
  rfl

/-- Settles O9: the wait is `step_waits`, the stop `step_stuck`. -/
theorem idleBlockWaitsAndStuckBlockStops : Obligations.IdleBlockWaitsAndStuckBlockStops :=
  ⟨fun _ => step_waits, fun _ _ => step_stuck⟩

/-- A reset leaves the reset state, with the host's further moves and the platform's answers (70_reset_and_hazards.md
R129). -/
theorem step_reset {s : State} {rest : List HostMove} (hh : s.host = .reset :: rest) :
    step s = .next { State.reset with host := rest, tx := s.tx, dly := s.dly } := by
  cases hb : s.busy <;> simp only [step, hb, hh] <;> rfl

/-- Settles O10: the state of `step_reset`; of an empty trace the observer knows nothing. -/
theorem resetMoveRestoresReset : Obligations.ResetMoveRestoresReset := by
  intro s rest hh
  refine ⟨_, step_reset hh, memRead1_cleared, rfl, rfl, rfl, rfl, rfl, rfl, rfl, rfl, fun _ _ => rfl, rfl, rfl, ?_⟩
  exact FarEnd.panel_of_not_flushed (watch Config.block []).tracked rfl

/-- Settles O36: the mode check comes before any port call. -/
theorem modePreconditions : Obligations.ModePreconditions := by
  refine ⟨fun s hm => ?_, fun s hm => ?_⟩
  · rw [exec, execInit, if_neg hm]; rfl
  · rw [exec, execFlush, if_neg hm]; rfl

end Sys2Proof.Machine
end

section
/-! The framebuffer operations (40_framebuffer.md R71 to R80), and the framebuffer as pixels, bytes and words
(20_memory.md R31 to R36). -/

namespace Sys2Proof.Machine

/-! ### The addressing function -/

/-- Settles O14: different pixels have different bits, and the inverse of R79 names a pixel for every bit. -/
theorem addressingBijection : Obligations.AddressingBijection := by
  refine ⟨⟨fun ⟨c, r⟩ ⟨c', r'⟩ h => ?injective, fun ⟨i, b⟩ => ?surjective⟩, fun c r => ?inverse⟩
  case injective =>
    obtain ⟨hbyte, hbit⟩ := Prod.mk.inj h
    obtain ⟨rfl, rfl⟩ := addressing_injective hbyte hbit
    rfl
  case surjective =>
    refine ⟨(⟨8 * (i.val % 16) + (7 - b.val), by omega⟩, ⟨i.val / 16, by omega⟩), Prod.ext (Fin.ext ?_) (Fin.ext ?_)⟩
    · simp only [byteIndex]; omega
    · simp only [bitIndex]; omega
  case inverse =>
    simp only [byteIndex, bitIndex]
    omega

/-- The pixels, one for one with the bits of the framebuffer (40_framebuffer.md R79). -/
noncomputable def bitOfPixel : Column × Row ≃ ByteIndex × Fin 8 := Equiv.ofBijective _ addressingBijection.1

/-- Settles O23: both count the on bits, the pixels through `bitOfPixel`. -/
theorem oneBitsArePixelsOn : Obligations.OneBitsArePixelsOn := by
  intro fb
  calc (Finset.univ.filter fun c : Column × Row => pixel fb c.1 c.2 = true).card
    _ = ∑ c : Column × Row, if (memRead1 fb (bitOfPixel c).1).getLsbD (bitOfPixel c).2 = true then 1 else 0 :=
      Finset.card_filter ..
    _ = ∑ b : ByteIndex × Fin 8, if (memRead1 fb b.1).getLsbD b.2 = true then 1 else 0 :=
      bitOfPixel.sum_comp fun b => if (memRead1 fb b.1).getLsbD b.2 = true then 1 else 0
    _ = ∑ i : ByteIndex, ∑ b : Fin 8, if (memRead1 fb i).getLsbD b = true then 1 else 0 := Fintype.sum_prod_type ..
    _ = ∑ i : ByteIndex, (Finset.univ.filter fun b : Fin 8 => (memRead1 fb i).getLsbD b = true).card :=
      Finset.sum_congr rfl fun i _ => (Finset.card_filter ..).symm

/-- Settles O24: the word's pixels by `wordAt_pixel`, its bytes by `wordAt_high` and `wordAt_low`. -/
theorem wordViewAgrees : Obligations.WordViewAgrees := by
  refine fun fb r g => ⟨wordAt_pixel fb r g, wordAt_high fb r g, wordAt_low fb r g, rfl, rfl, ?_, ?_⟩
  · simp only [leftIndex]; omega
  · simp only [rightIndex]; omega

/-! ### The operations -/

/-- Settles O15: a pixel operation on the canvas writes its byte, and `memRead1_drawItem_same` reads it back. -/
theorem setPixelResult : Obligations.SetPixelResult := by
  intro x y h k s
  refine ⟨(s.setFb (fbSetPixel s.fb (column x h) (row y k))).answer 0#24, ?_,
    memRead1_drawItem_same s.fb (column x h) (row y k) true,
    fun j hj => memRead1_drawItem_other s.fb (column x h) (row y k) true hj, rfl⟩
  rw [exec, execSetPixel, pixelAt_of_inRange x y h k]

/-- Settles O16: as O15, with the mask taken out. -/
theorem clearPixelResult : Obligations.ClearPixelResult := by
  intro x y h k s
  refine ⟨(s.setFb (fbClearPixel s.fb (column x h) (row y k))).answer 0#24, ?_,
    memRead1_drawItem_same s.fb (column x h) (row y k) false,
    fun j hj => memRead1_drawItem_other s.fb (column x h) (row y k) false hj, rfl⟩
  rw [exec, execClearPixel, pixelAt_of_inRange x y h k]

/-- Settles O17: off the canvas a coordinate names no pixel (`pixelAt_of_offCanvas`). -/
theorem offCanvasIgnored : Obligations.OffCanvasIgnored := by
  intro x y s h
  have off := pixelAt_of_offCanvas x y h
  refine ⟨?_, ?_, ?_⟩
  · rw [exec, execSetPixel, off]; rfl
  · rw [exec, execClearPixel, off]; rfl
  · rw [exec, execGetPixel, off]; rfl

/-- Settles O18: the coordinate as a column and a row, then `exec_getPixel_coe`. -/
theorem getPixelResult : Obligations.GetPixelResult := by
  intro x y h k s
  have hget := exec_getPixel_coe (column x h) (row y k) s
  simp only [column, row, Int.toNat_of_nonneg h.1, Int.toNat_of_nonneg k.1] at hget
  exact hget

/-- CLEAR_ALL leaves every byte 0x00 (40_framebuffer.md R75). -/
theorem exec_clearAll (s : State) :
    exec .clearAll s = .next { s with fb := Memory.cleared, rsp := s.rsp ++ [⟨.ok, 0#24⟩] } := rfl

/-- Settles O20: the word by format N, the operation by `exec_clearAll`. -/
theorem clearAllResult : Obligations.ClearAllResult := by
  refine ⟨fun w hop => ⟨fun h => ?_, fun h => ?_⟩, sampleWordsDecode.2.2.2.2.1, fun s =>
    ⟨_, exec_clearAll s, memRead1_cleared, rfl, fun hwf hz => ?_, fun c r => ?_⟩⟩
  · rw [decode_clearAll hop, decodeN, if_pos h]
  · rw [decode_clearAll hop, decodeN, if_neg h, hop]
  · exact fb_ext Memory.wf_cleared hwf fun i => (hz i).symm
  · rw [exec_getPixel_coe, pixel_cleared]; rfl

/-- RAW_READ of an index below 1024 (40_framebuffer.md R76). -/
theorem exec_rawRead_coe (i : ByteIndex) (s : State) :
    exec (.rawRead i.val) s = .next { s with rsp := s.rsp ++ [⟨.ok, (memRead1 s.fb i).setWidth 24⟩] } := by
  have data : ∀ v : Byte, byteData v = v.setWidth 24 := by decide
  rw [exec, execRawRead, byteAt_coe, ← data]
  rfl

/-- Settles O21: an index of 1024 or more names no byte. -/
theorem rawReadResult : Obligations.RawReadResult := by
  refine ⟨exec_rawRead_coe, fun i s h => ?_⟩
  rw [exec, execRawRead, byteAt_of_ge i h]
  rfl

/-! ### Two pixel writes -/

/-- The framebuffer after a draw item on the canvas (30_encoding.md R66). -/
def drawPixel (fb : Memory) (c : Column) (r : Row) (on : Bool) : Memory :=
  if on then fbSetPixel fb c r else fbClearPixel fb c r

theorem exec_drawPixel (c : Column) (r : Row) (on : Bool) (s : State) :
    exec (DrawItem.op ⟨c.val, r.val, on⟩) s =
      .next { s with fb := drawPixel s.fb c r on, rsp := s.rsp ++ [⟨.ok, 0#24⟩] } := exec_drawItem c r on s

theorem pixel_drawPixel (fb : Memory) (c : Column) (r : Row) (on : Bool) (c' : Column) (r' : Row) :
    pixel (drawPixel fb c r on) c' r' = if (c', r') = (c, r) then on else pixel fb c' r' :=
  pixel_drawItem fb c r on c' r'

/-- A pixel write keeps the canonical form. -/
theorem wf_drawPixel {fb : Memory} (h : fb.wf) (c : Column) (r : Row) (on : Bool) : (drawPixel fb c r on).wf := by
  cases on
  · exact wf_fbClearPixel fb c r h
  · exact wf_fbSetPixel fb c r h

/-- Writes to different coordinates commute (40_framebuffer.md R80). -/
theorem drawPixel_comm {fb : Memory} (h : fb.wf) {c c' : Column} {r r' : Row} (hne : (c, r) ≠ (c', r'))
    (on on' : Bool) :
    drawPixel (drawPixel fb c r on) c' r' on' = drawPixel (drawPixel fb c' r' on') c r on := by
  refine fb_ext_of_pixel (wf_drawPixel (wf_drawPixel h ..) ..) (wf_drawPixel (wf_drawPixel h ..) ..) fun x y => ?_
  simp only [pixel_drawPixel]
  by_cases hxy : (x, y) = (c, r)
  · rw [if_neg (hxy ▸ hne), if_pos hxy, if_pos hxy]
  · simp only [if_neg hxy]

/-- Of two writes to one coordinate the later is left (40_framebuffer.md R80). -/
theorem drawPixel_same {fb : Memory} (h : fb.wf) (c : Column) (r : Row) (on on' : Bool) :
    drawPixel (drawPixel fb c r on) c r on' = drawPixel fb c r on' := by
  refine fb_ext_of_pixel (wf_drawPixel (wf_drawPixel h ..) ..) (wf_drawPixel h ..) fun x y => ?_
  simp only [pixel_drawPixel]
  split <;> rfl

/-- Settles O22: the framebuffers by `drawPixel_comm` and `drawPixel_same`; the responses are the same. -/
theorem pixelWritesCommute : Obligations.PixelWritesCommute := by
  intro s c c' r r' on on' h
  refine ⟨_, _, _, _, exec_drawPixel c r on s, exec_drawPixel c' r' on' _, exec_drawPixel c' r' on' s,
    exec_drawPixel c r on _, fun hne => ?commute, fun heq => ?later, fun heq hon => ?repeated⟩
  case commute => simp only [drawPixel_comm h hne]
  case later =>
    cases heq
    exact drawPixel_same h c r on on'
  case repeated =>
    cases heq
    cases hon
    exact drawPixel_same h c r on on

end Sys2Proof.Machine
end

section
/-! The packet codec (41_packet_codec.md R85 to R89; 30_encoding.md R62) and the address translator
(42_address_translator.md R93 to R97). -/

namespace Sys2Proof.Machine

/-! ### The codec -/

/-- Settles O28: the sync byte is `syncByte_block`. -/
theorem encodeResult : Obligations.EncodeResult := by
  intro value rs rw s
  simp only [exec, execEncode, packetData, encodePacket, syncByte_block]
  rfl

/-- Settles O30: the sync pattern by `syncByte_fields`, the rest by `nibbles`. -/
theorem packetStructure : Obligations.PacketStructure := by
  intro p value rs rw hp
  obtain ⟨hsync, -⟩ := syncByte_fields p rs rw hp
  obtain ⟨highZero, lowZero, high, low, -⟩ := nibbles value
  exact ⟨_, rfl, rfl, hsync, high, low, highZero, lowZero⟩

/-- The nibble bytes of a value that was put together from two bytes with low bits zero (30_encoding.md R62). -/
theorem nibbles_of_bytes (b1 b2 : Byte) (h1 : b1.extractLsb' 0 4 = 0#4) (h2 : b2.extractLsb' 0 4 = 0#4) :
    (b1.extractLsb' 4 4 ++ b2.extractLsb' 4 4) &&& 0xF0#8 = b1 ∧
    (b1.extractLsb' 4 4 ++ b2.extractLsb' 4 4) <<< 4 = b2 := by
  have split : ∀ b : Byte, b.extractLsb' 0 4 = 0#4 → b = b.extractLsb' 4 4 ++ 0#4 := by decide
  rw [split b1 h1, split b2 h2]
  generalize b1.extractLsb' 4 4 = n1
  generalize b2.extractLsb' 4 4 = n2
  revert n1 n2
  decide

/-- A well-formed packet is the encoding of what it carries (30_encoding.md R62). -/
theorem encodePacket_of_wellFormed {p : Params} (hp : p.wf) {k : Packet} (h : k.WellFormed p) :
    encodePacket p (k.b1.extractLsb' 4 4 ++ k.b2.extractLsb' 4 4) (k.b0.getLsbD p.rsPos) (k.b0.getLsbD p.rwPos) =
      k := by
  obtain ⟨hhigh, hlsb, h1, h2⟩ := h
  obtain ⟨e1, e2⟩ := nibbles_of_bytes k.b1 k.b2 h1 h2
  rw [encodePacket, syncByte_of_fields p k.b0 hp hhigh hlsb, e1, e2]

theorem decodePacket_eq_some_iff {p : Params} {k : Packet} {y : Payload} : decodePacket p k = some y ↔ k.WellFormed p ∧
    ⟨k.b1.extractLsb' 4 4 ++ k.b2.extractLsb' 4 4, k.b0.getLsbD p.rsPos, k.b0.getLsbD p.rwPos⟩ = y := by
  rw [decodePacket, Option.ite_none_right_eq_some, Option.some.injEq]

/-- Settles O31: one direction is `decodePacket_encodePacket`, from which `encode` is injective, the other
`encodePacket_of_wellFormed`. -/
theorem packetRoundTrip : Obligations.PacketRoundTrip := by
  intro p hp
  refine ⟨decodePacket_encodePacket p hp, fun k y h => ?_, fun k => ⟨fun ⟨y, h⟩ => ?_, fun h => ?_⟩,
    fun v v' rs rs' rw rw' h => ?_⟩
  · obtain ⟨hwf, rfl⟩ := decodePacket_eq_some_iff.1 h
    exact encodePacket_of_wellFormed hp hwf
  · exact (decodePacket_eq_some_iff.1 h).1
  · exact ⟨_, decodePacket_eq_some_iff.2 ⟨h, rfl⟩⟩
  · have hpayload : some (Payload.mk v rs rw) = some ⟨v', rs', rw'⟩ :=
      (decodePacket_encodePacket p hp v rs rw).symm.trans (h ▸ decodePacket_encodePacket p hp v' rs' rw')
    simpa using hpayload

/-! ### The translator -/

/-- The DATA of XLATE as a number (30_encoding.md R52). -/
theorem addressData_eq (v : Vertical) (h : Horizontal) : addressData v h = BitVec.ofNat 24 (256 * v.val + h.val) := by
  revert v h; decide

/-- XLATE of a word position (42_address_translator.md R94). -/
theorem exec_xlate_coe (r : Row) (g : Group) (s : State) : exec (.xlate r.val g.val) s = .next { s with rsp := s.rsp ++
    [⟨.ok, BitVec.ofNat 24 (256 * (xlate r g).1.val + (xlate r g).2.val)⟩] } := by
  rw [exec, execXlate, wordPosition_coe, ← addressData_eq]
  rfl

/-- The upper half of the panel (42_address_translator.md R93). -/
theorem xlate_upper {r : Row} (g : Group) (h : r.val < 32) : (xlate r g).1.val = r.val ∧ (xlate r g).2.val = g.val := by
  rw [xlate, dif_pos h]; exact ⟨rfl, rfl⟩

/-- The lower half of the panel (42_address_translator.md R93). -/
theorem xlate_lower {r : Row} (g : Group) (h : 32 ≤ r.val) :
    (xlate r g).1.val = r.val - 32 ∧ (xlate r g).2.val = g.val + 8 := by
  rw [xlate, dif_neg (Nat.not_lt.2 h)]; exact ⟨rfl, rfl⟩

/-- Settles O32: the address of a word position, in its half; outside there is none. -/
theorem xlateResult : Obligations.XlateResult := by
  refine ⟨fun r g s hr hg => ?_, fun r g s hr hr' hg => ?_, fun r g s h => ?_⟩
  · obtain ⟨hv, hh⟩ := xlate_upper (r := ⟨r, by omega⟩) ⟨g, hg⟩ hr
    rw [exec_xlate_coe ⟨r, by omega⟩ ⟨g, hg⟩ s, hv, hh]
  · obtain ⟨hv, hh⟩ := xlate_lower (r := ⟨r, hr'⟩) ⟨g, hg⟩ hr
    rw [exec_xlate_coe ⟨r, hr'⟩ ⟨g, hg⟩ s, hv, hh]
  · rw [exec, execXlate, wordPosition_of_out r g h]
    rfl

/-- Settles O33: `unxlate` is the inverse on both sides. -/
theorem translationBijection : Obligations.TranslationBijection := by
  refine ⟨Function.bijective_iff_has_inverse.2 ⟨fun a => unxlate a.1 a.2, fun c => unxlate_xlate c.1 c.2,
    fun a => xlate_unxlate a.1 a.2⟩, fun r g => ?_⟩
  have inverse := unxlate_xlate r g
  exact ⟨congrArg (·.1.val) inverse.symm, congrArg (·.2.val) inverse.symm, xlate_row r g⟩

end Sys2Proof.Machine
end

section
/-! The sequencer (43_sequencer.md): how INIT and FLUSH end when the platform's answers are given (R100 to R104,
60_exceptions.md R119). -/

namespace Sys2Proof.Machine

/-! ### INIT -/

/-- The actions of INIT before its command `k`. -/
def initBefore (p : Params) (k : Fin 3) : List Act :=
  match k with
  | 0 => [.select true]
  | 1 => [.select true] ++ initCommand p .funcBasic ++ [.toMode .basic]
  | 2 => [.select true] ++ initCommand p .funcBasic ++ [.toMode .basic] ++ initCommand p .funcExt

/-- The actions of INIT up to the send of its command `k`, which the settle delay follows. -/
def initThrough (p : Params) (k : Fin 3) : List Act :=
  initBefore p k ++ [.send (.initSend (initCommands.get k)) (initPacket p (initCommands.get k))]

/-- The send of command `k` of INIT (43_sequencer.md R100). -/
theorem initActs_send_split (p : Params) (k : Fin 3) : ∃ rest, initActs p =
    initBefore p k ++ .send (.initSend (initCommands.get k)) (initPacket p (initCommands.get k)) :: rest := by
  match k with
  | 0 | 1 | 2 => exact ⟨_, rfl⟩

/-- The settle delay after command `k` of INIT (43_sequencer.md R100). -/
theorem initActs_settle_split (p : Params) (k : Fin 3) : ∃ rest, initActs p =
    initThrough p k ++ .settle (.initSettle (initCommands.get k)) p.tInitSettle :: rest := by
  match k with
  | 0 | 1 | 2 => exact ⟨_, rfl⟩

section
variable (p : Params) (k : Fin 3)

theorem sends_initBefore : sends (initBefore p k) = k.val := by
  match k with
  | 0 | 1 | 2 => rfl

theorem delays_initBefore : delays (initBefore p k) = k.val := by
  match k with
  | 0 | 1 | 2 => rfl

theorem actCs_initBefore (c : Bool) : actCs (initBefore p k) c = true := by
  match k with
  | 0 | 1 | 2 => rfl

theorem actMode_initBefore : actMode (initBefore p k) .uninit = if k = 0 then .uninit else .basic := by
  match k with
  | 0 | 1 | 2 => rfl

theorem actTrace_initBefore : actTrace (initBefore p k) = (initTrace p).take (2 * k.val + 1) := by
  match k with
  | 0 | 1 | 2 => rfl

theorem sends_initThrough : sends (initThrough p k) = k.val + 1 := by
  simp [initThrough, sends_initBefore, sends]

theorem delays_initThrough : delays (initThrough p k) = k.val := by
  simp [initThrough, delays_initBefore, delays]

theorem actCs_initThrough (c : Bool) : actCs (initThrough p k) c = true := by
  simp [initThrough, actCs_initBefore, actCs]

theorem actMode_initThrough : actMode (initThrough p k) .uninit = if k = 0 then .uninit else .basic := by
  simp [initThrough, actMode_initBefore, actMode]

theorem actTrace_initThrough : actTrace (initThrough p k) ++ [.dly p.tInitSettle] =
    (initTrace p).take (2 * k.val + 3) := by
  match k with
  | 0 | 1 | 2 => rfl

end

/-- INIT in UNINIT runs its actions (43_sequencer.md R100). -/
theorem exec_init_uninit {s : State} (hm : s.mode = .uninit) :
    exec .init s = .next (concludeInit (runActs (initActs Config.block) s)) := by
  rw [exec, execInit, if_pos hm]

section
variable {s : State} {k : Fin 3} (hm : s.mode = .uninit) (hdelays : s.DelaysReturn k.val)
include hm hdelays

/-- INIT whose command `k` fails (43_sequencer.md R101). -/
theorem exec_init_failed (hok : s.TransportOk k.val) (hf : s.txAnswer k.val = .answered .fail) :
    exec .init s = .next { s with
      mode := .uninit, cs := false, rsp := s.rsp ++ [⟨.transportError, 0#24⟩], tx := s.tx.after (k.val + 1),
      dly := s.dly.after k.val,
      out := s.out ++ (initTrace Config.block).take (2 * k.val + 1) ++
        [.tx (initPacket Config.block (initCommands.get k)) .fail, .cs false] } := by
  obtain ⟨rest, hl⟩ := initActs_send_split Config.block k
  have hs := sends_initBefore Config.block k
  have hd := delays_initBefore Config.block k
  have hanswered : s.ActsAnswered (initBefore Config.block k) := ⟨by rwa [hs], by rwa [hd]⟩
  rw [exec_init_uninit hm, hl, runActs_failed _ _ _ _ _ hanswered (by rwa [hs])]
  simp [concludeInit, State.afterActs, State.csSet, State.setMode, State.raise, State.respond, hs, hd,
    actTrace_initBefore]

/-- INIT stuck in the `TxWrite` of command `k` (60_exceptions.md R119). -/
theorem exec_init_send_stalled (hok : s.TransportOk k.val) (hf : s.txAnswer k.val = .never) :
    exec .init s = .next { s with
      mode := if k = 0 then .uninit else .basic, cs := true, busy := some (.initSend (initCommands.get k)),
      tx := s.tx.after (k.val + 1), dly := s.dly.after k.val,
      out := s.out ++ (initTrace Config.block).take (2 * k.val + 1) } := by
  obtain ⟨rest, hl⟩ := initActs_send_split Config.block k
  have hs := sends_initBefore Config.block k
  have hd := delays_initBefore Config.block k
  have hanswered : s.ActsAnswered (initBefore Config.block k) := ⟨by rwa [hs], by rwa [hd]⟩
  rw [exec_init_uninit hm, hl, runActs_send_stalled _ _ _ _ _ hanswered (by rwa [hs])]
  simp [concludeInit, State.afterActs, hs, hd, hm, actCs_initBefore, actMode_initBefore, actTrace_initBefore]

/-- INIT stuck in the settle delay after command `k` (60_exceptions.md R119). -/
theorem exec_init_settle_stalled (hok : s.TransportOk (k.val + 1)) (hf : s.delayAnswer k.val = .never) :
    exec .init s = .next { s with
      mode := if k = 0 then .uninit else .basic, cs := true, busy := some (.initSettle (initCommands.get k)),
      tx := s.tx.after (k.val + 1), dly := s.dly.after (k.val + 1),
      out := s.out ++ (initTrace Config.block).take (2 * k.val + 3) } := by
  obtain ⟨rest, hl⟩ := initActs_settle_split Config.block k
  have hs := sends_initThrough Config.block k
  have hd := delays_initThrough Config.block k
  have hanswered : s.ActsAnswered (initThrough Config.block k) := ⟨by rwa [hs], by rwa [hd]⟩
  rw [exec_init_uninit hm, hl, runActs_settle_stalled _ _ _ _ _ hanswered (by rwa [hd])]
  simp [concludeInit, State.afterActs, hs, hd, hm, actCs_initThrough, actMode_initThrough, ← actTrace_initThrough]

end

/-- INIT with a platform that answers well (43_sequencer.md R100). -/
theorem exec_init_done {s : State} (hm : s.mode = .uninit) (hok : s.TransportOk 3) (hd : s.DelaysReturn 3) :
    exec .init s = .next { s with
      mode := .extgfx, cs := false, rsp := s.rsp ++ [⟨.ok, 0#24⟩], tx := s.tx.after 3, dly := s.dly.after 3,
      out := s.out ++ initTrace Config.block } := by
  rw [exec_init_uninit hm, runActs_done (initActs Config.block) s ⟨hok, hd⟩]
  rfl

/-- The packets of INIT in wire bytes, with the default literals (30_encoding.md R57 to R59). -/
theorem initPacket_block : initPacket Config.block .funcBasic = ⟨0xF8#8, 0x30#8, 0x00#8⟩ ∧
    initPacket Config.block .funcExt = ⟨0xF8#8, 0x30#8, 0x40#8⟩ ∧
    initPacket Config.block .gfxOn = ⟨0xF8#8, 0x30#8, 0x60#8⟩ := by decide

/-- Settles O34: the run to its end, its packets written out. -/
theorem initSucceeds : Obligations.InitSucceeds := by
  intro s hm hok hd
  obtain ⟨hbasic, hext, hgfx⟩ := initPacket_block
  rw [exec_init_done hm hok hd, initTrace, hbasic, hext, hgfx]

/-- Settles O35: `exec_init_failed` says it. -/
theorem initFails : Obligations.InitFails := fun _ _ hm hok hd hf => exec_init_failed hm hd hok hf

/-- Settles O43: the `TxWrite` and the `Delay` of command `k`. -/
theorem stalledInitStaysInProgress : Obligations.StalledInitStaysInProgress := fun _ _ hm hd =>
  ⟨fun hok hf => exec_init_send_stalled hm hd hok hf, fun hok hf => exec_init_settle_stalled hm hd hok hf⟩

end Sys2Proof.Machine
end

section
/-! FLUSH when the platform's answers are given (43_sequencer.md R102 to R107, 60_exceptions.md R119). -/

namespace Sys2Proof.Machine

/-! ### How FLUSH ends -/

/-- FLUSH in EXTGFX runs its actions (43_sequencer.md R102). -/
theorem exec_flush_extgfx {s : State} (hm : s.mode = .extgfx) :
    exec .flush s = .next (concludeFlush (runActs (flushActs Config.block s.fb) s)) := by
  rw [exec, execFlush, if_pos hm]

/-- FLUSH with a platform that answers well (43_sequencer.md R102). -/
theorem exec_flush_done {s : State} (hm : s.mode = .extgfx) (hok : s.TransportOk 1152)
    (hd : s.DelaysReturn (flushDelays Config.block)) :
    exec .flush s = .next { s with
      cs := false, rsp := s.rsp ++ [⟨.ok, 0#24⟩], tx := s.tx.after 1152,
      dly := s.dly.after (flushDelays Config.block), out := s.out ++ flushTrace Config.block s.fb } := by
  have hs := sends_flushActs Config.block s.fb
  have hdelays := delays_flushActs Config.block s.fb
  rw [exec_flush_extgfx hm, runActs_done _ s ⟨by rwa [hs], by rwa [hdelays]⟩]
  simp only [concludeFlush, State.answer, State.respond, State.afterActs, actMode_flushActs, actCs_flushActs,
    actTrace_flushActs, hs, hdelays]

section
variable {s : State} {l₁ l₂ : List Act} {q : SeqPoint} (hm : s.mode = .extgfx) (hanswered : s.ActsAnswered l₁)
include hm hanswered

/-- FLUSH whose `TxWrite` after the actions `l₁` fails (43_sequencer.md R104). -/
theorem exec_flush_failed {k : Packet} (hl : flushActs Config.block s.fb = l₁ ++ .send q k :: l₂)
    (hf : s.txAnswer (sends l₁) = .answered .fail) :
    exec .flush s = .next { s with
      cs := false, rsp := s.rsp ++ [⟨.transportError, 0#24⟩], tx := s.tx.after (sends l₁ + 1),
      dly := s.dly.after (delays l₁), out := s.out ++ actTrace l₁ ++ [.tx k .fail, .cs false] } := by
  obtain ⟨-, hmode, -⟩ := flush_before_call Config.block s.fb l₁ l₂ _ rfl hl
  rw [exec_flush_extgfx hm, hl, runActs_failed _ _ _ _ _ hanswered hf]
  simp [concludeFlush, State.afterActs, State.csSet, State.raise, State.respond, hmode]

/-- FLUSH stuck in the `TxWrite` after the actions `l₁` (60_exceptions.md R119). -/
theorem exec_flush_send_stalled {k : Packet} (hl : flushActs Config.block s.fb = l₁ ++ .send q k :: l₂)
    (hf : s.txAnswer (sends l₁) = .never) :
    exec .flush s = .next { s with
      cs := true, busy := some q, tx := s.tx.after (sends l₁ + 1), dly := s.dly.after (delays l₁),
      out := s.out ++ actTrace l₁ } := by
  obtain ⟨hcs, hmode, -⟩ := flush_before_call Config.block s.fb l₁ l₂ _ rfl hl
  rw [exec_flush_extgfx hm, hl, runActs_send_stalled _ _ _ _ _ hanswered hf]
  simp [concludeFlush, State.afterActs, hmode, hcs]

/-- FLUSH stuck in the `Delay` after the actions `l₁` (60_exceptions.md R119). -/
theorem exec_flush_settle_stalled {n : Nat} (hl : flushActs Config.block s.fb = l₁ ++ .settle q n :: l₂)
    (hf : s.delayAnswer (delays l₁) = .never) :
    exec .flush s = .next { s with
      cs := true, busy := some q, tx := s.tx.after (sends l₁), dly := s.dly.after (delays l₁ + 1),
      out := s.out ++ actTrace l₁ ++ [.dly n] } := by
  obtain ⟨hcs, hmode, -⟩ := flush_before_call Config.block s.fb l₁ l₂ _ rfl hl
  rw [exec_flush_extgfx hm, hl, runActs_settle_stalled _ _ _ _ _ hanswered hf]
  simp [concludeFlush, State.afterActs, hmode, hcs]

end

/-! ### Where in the trace a call of FLUSH stands -/

section
variable {p : Params} {fb : Memory} {l₁ l₂ : List Act} {q : SeqPoint}

theorem cutBefore_flushTrace {k : Packet} (hl : flushActs p fb = l₁ ++ .send q k :: l₂) :
    cutBefore (sends l₁) (flushTrace p fb) = actTrace l₁ := by
  rw [← actTrace_flushActs, hl, cutBefore_actTrace]

theorem dlyCount_cutBefore_flushTrace {k : Packet} (hl : flushActs p fb = l₁ ++ .send q k :: l₂) :
    dlyCount (cutBefore (sends l₁) (flushTrace p fb)) = delays l₁ := by
  rw [cutBefore_flushTrace hl, dlyCount_actTrace]

theorem cutThroughDelay_flushTrace {n : Nat} (hl : flushActs p fb = l₁ ++ .settle q n :: l₂) :
    cutThroughDelay (delays l₁) (flushTrace p fb) = actTrace l₁ ++ [.dly n] := by
  rw [← actTrace_flushActs, hl, cutThroughDelay_actTrace]

theorem flushPackets_getElem {k : Packet} (hl : flushActs p fb = l₁ ++ .send q k :: l₂) :
    (flushPackets p fb)[sends l₁]? = some k := by
  rw [← actPackets_flushActs, hl, actPackets_getElem]

end

/-- Settles O37: the run to its end. -/
theorem flushSucceeds : Obligations.FlushSucceeds := fun _ => exec_flush_done

/-- Settles O38: packet `k` is sent by some action of FLUSH, and the trace is cut before it. -/
theorem flushFails : Obligations.FlushFails := by
  intro s k pkt hm hpkt hok hd hf
  rw [← actPackets_flushActs] at hpkt
  obtain ⟨l₁, q, l₂, hl, rfl⟩ := exists_send _ k pkt hpkt
  rw [dlyCount_cutBefore_flushTrace hl] at hd ⊢
  rw [cutBefore_flushTrace hl]
  exact exec_flush_failed hm ⟨hok, hd⟩ hl hf

/-- Settles O44: the point's own packet or delay is an action of FLUSH, and its number counts the calls before it. -/
theorem stalledFlushStaysInProgress : Obligations.StalledFlushStaysInProgress := by
  intro s q hm hq hok hd
  refine ⟨fun k hk hf => ?send, fun n hn hf => ?delay⟩
  case send =>
    obtain ⟨l₁, l₂, hl⟩ := exists_flush_send Config.block s.fb q k hq hk
    obtain ⟨-, hsends, hdelays⟩ := flush_send_point Config.block s.fb l₁ l₂ q k hl
    rw [hsends] at hok hf ⊢
    rw [hdelays] at hd ⊢
    rw [cutBefore_flushTrace hl]
    exact ⟨flushPackets_getElem hl, _, exec_flush_send_stalled hm ⟨hok, hd⟩ hl hf, rfl, step_stuck rfl⟩
  case delay =>
    obtain ⟨l₁, l₂, hl⟩ := exists_flush_settle Config.block s.fb q n hq hn
    obtain ⟨-, hsends, hdelays⟩ := flush_settle_point Config.block s.fb l₁ l₂ q n hl
    rw [hsends] at hok ⊢
    rw [hdelays] at hd hf ⊢
    rw [cutThroughDelay_flushTrace hl, ← List.append_assoc]
    exact ⟨_, exec_flush_settle_stalled hm ⟨hok, hd⟩ hl hf, rfl, List.getLast?_concat, step_stuck rfl⟩

/-- Settles O45: the cases of `execFlush_cases`, each call at the point that names it. -/
theorem flushEndsInOneOfThreeWays : Obligations.FlushEndsInOneOfThreeWays := by
  intro s hm hb
  obtain ⟨hne, -⟩ | ⟨-, hok, hd, hx⟩ | ⟨l₁, q, k, l₂, -, hl, ⟨hok, hd⟩, hf, hx⟩ |
    ⟨l₁, q, k, l₂, -, hl, ⟨hok, hd⟩, hf, hq, hx⟩ | ⟨l₁, q, n, l₂, -, hl, ⟨hok, hd⟩, hf, hq, hx⟩ := execFlush_cases s
  case inl => exact absurd hm hne
  case inr.inl => exact ⟨_, hx, rfl, hm, .inl ⟨hb, rfl, rfl, hok, hd⟩⟩
  case inr.inr.inl =>
    refine ⟨_, hx, rfl, hm, .inr (.inl ⟨hb, rfl, rfl, sends l₁, sends_lt_of_send _ _ hl, hok, ?_, hf⟩)⟩
    rwa [dlyCount_cutBefore_flushTrace hl]
  case inr.inr.inr.inl =>
    obtain ⟨hk, hsends, hdelays⟩ := flush_send_point Config.block s.fb l₁ l₂ q k hl
    refine ⟨_, hx, rfl, hm,
      .inr (.inr ⟨rfl, rfl, q, rfl, hq, by rwa [hsends], by rwa [hdelays], .inl ⟨?_, ?_, ?_, ?_⟩⟩)⟩
    · rw [hk]; exact Option.some_ne_none k
    · rw [hsends]; exact sends_lt_of_send _ _ hl
    · rw [hsends, hdelays, dlyCount_cutBefore_flushTrace hl]
    · rwa [hsends]
  case inr.inr.inr.inr =>
    obtain ⟨hn, hsends, hdelays⟩ := flush_settle_point Config.block s.fb l₁ l₂ q n hl
    refine ⟨_, hx, rfl, hm,
      .inr (.inr ⟨rfl, rfl, q, rfl, hq, by rwa [hsends], by rwa [hdelays], .inr ⟨?_, ?_, ?_⟩⟩)⟩
    · rw [hn]; exact Option.some_ne_none n
    · rw [hdelays]; exact delays_lt_of_settle _ _ hl
    · rwa [hdelays]

/-! ### The trace of a FLUSH -/

/-- Port calls alone put no chip-select event into the trace. -/
theorem cs_not_mem_actTrace {l : List Act} (h : ∀ a ∈ l, a.isCall = true) (b : Bool) : .cs b ∉ actTrace l := by
  intro hb
  obtain ⟨a, ha, hba⟩ := List.mem_flatMap.1 hb
  cases a with
  | select c => exact Bool.false_ne_true (h _ ha)
  | toMode m => exact Bool.false_ne_true (h _ ha)
  | send q k => simp [Act.events] at hba
  | settle q n => simp [Act.events] at hba

/-- The packets of row `r` in the packets of a FLUSH (43_sequencer.md R107). -/
theorem flushPackets_row (p : Params) (fb : Memory) (r : Row) {j : Nat} (hj : j < 18) :
    (flushPackets p fb)[18 * r.val + j]? = (rowPackets p fb r)[j]? :=
  getElem_flatMap_finRange 64 18 (rowPackets p fb) (fun r => by simp [rowPackets]) r j hj

/-- Settles O39: the trace as that of the actions of FLUSH, its packets row by row, one bracket around port calls. -/
theorem flushSizesAndOrder : Obligations.FlushSizesAndOrder := by
  intro p fb
  have htx : txEvents (flushTrace p fb) = (flushPackets p fb).map fun k => (k, .ok) := by
    rw [← actTrace_flushActs, txEvents_actTrace, actPackets_flushActs]
  have hlen : (flushPackets p fb).length = 1152 := by
    rw [← actPackets_flushActs, length_actPackets, sends_flushActs]
  have hbracket : flushTrace p fb = [.cs true] ++ actTrace (flushCalls p fb) ++ [.cs false] := by
    rw [← actTrace_flushActs, flushActs_eq]
    simp [Act.events]
  have hcount : ∀ b, (actTrace (flushCalls p fb)).count (.cs b) = 0 := fun b =>
    List.count_eq_zero.2 (cs_not_mem_actTrace (isCall_flushCalls p fb) b)
  refine ⟨htx, hlen, fun r => ⟨?_, ?_, fun k => ?_⟩, ?_, ?_, ?_, ?_, ?_, ?_⟩
  · exact flushPackets_row p fb r (j := 0) (by omega)
  · exact flushPackets_row p fb r (j := 1) (by omega)
  · rw [Nat.add_assoc, flushPackets_row p fb r (by omega)]
    simp [rowPackets, Nat.add_comm 2]
  · rw [length_wireBytes _ fun k => actTrace_flushActs p fb ▸ fail_not_mem_actTrace _ k, htx, List.length_map, hlen]
  · rw [← actTrace_flushActs, dlyCount_actTrace, delays_flushActs]
  · simp [hbracket, hcount]
  · simp [hbracket, hcount]
  · rw [hbracket]; rfl
  · rw [hbracket]; exact List.getLast?_concat

/-- The address-set packets of a row in wire bytes (43_sequencer.md R103). -/
theorem addressPackets_block (r : Row) :
    encodePacket Config.block (Config.block.cmdSetGaddr ||| BitVec.ofNat 8 (xlate r 0).1.val) false false =
      ⟨0xF8#8, (0x80#8 ||| BitVec.ofNat 8 (r.val % 32)) &&& 0xF0#8, (0x80#8 ||| BitVec.ofNat 8 (r.val % 32)) <<< 4⟩ ∧
    encodePacket Config.block (Config.block.cmdSetGaddr ||| BitVec.ofNat 8 (xlate r 0).2.val) false false =
      ⟨0xF8#8, 0x80#8, if r.val < 32 then 0x00#8 else 0x80#8⟩ := by
  revert r; decide

/-- Settles O40: the address-set by `addressPackets_block`, the sync byte of a data packet by `syncByte_block`. -/
theorem rowTransferBytes : Obligations.RowTransferBytes := by
  intro fb r
  obtain ⟨hvertical, hhorizontal⟩ := addressPackets_block r
  have data : ∀ v, encodePacket Config.block v true false = ⟨0xFA#8, v &&& 0xF0#8, v <<< 4⟩ := fun v => by
    rw [encodePacket, syncByte_block]; rfl
  simp only [rowPackets, hvertical, hhorizontal, data]

/-! ### What a FLUSH depends on -/

/-- A FLUSH that runs sets chip select before it does anything else. -/
theorem exec_flush_cs {s : State} (hm : s.mode = .extgfx) (c : Bool) :
    exec .flush { s with cs := c } = exec .flush s := by
  rw [exec_flush_extgfx hm, exec_flush_extgfx (s := { s with cs := c }) hm]
  rfl

/-- Settles O42: two such blocks differ in what no operation reads, and in chip select, which FLUSH sets first. -/
theorem flushDependsOnlyOnFb : Obligations.FlushDependsOnlyOnFb := by
  intro s s' hm hm' hb hb' hfb htx hdly
  obtain ⟨t, events, new, hexec, -, hout, hrsp, hcontext⟩ := exec_context .flush s
  have hs' : { s' with cs := s.cs } = s.inContext s'.host s'.out s'.rsp := by
    simp only [State.inContext, hm, hm', hb, hb', hfb, htx, hdly]
  refine ⟨t, t.inContext s'.host (s'.out ++ events) (s'.rsp ++ new), events, new, hexec, ?_, hout,
    rfl, hrsp, rfl, rfl, rfl, rfl, rfl⟩
  rw [← exec_flush_cs hm' s.cs, hs']
  exact hcontext s'.host s'.out s'.rsp

end Sys2Proof.Machine
end

section
/-! The invariant (10_state.md R16, R18, R27; 43_sequencer.md R111; 60_exceptions.md R113; 20_memory.md R49): it holds
at reset, every operation presented to an idle block keeps it, and so every step does. -/

namespace Sys2Proof.Machine

/-! ### The packets of a trace -/

/-- The packets of INIT are write packets of the codec (30_encoding.md R59). -/
theorem written_initTrace {k : Packet} {r : TxResult} (h : .tx k r ∈ initTrace Config.block) :
    k.Written Config.block := by
  obtain ⟨q, hq⟩ := mem_actTrace_tx (initActs Config.block) k r h
  simp only [initActs, initCommand, sendCmd, List.cons_append, List.nil_append, List.mem_cons, List.not_mem_nil,
    Act.send.injEq, reduceCtorEq, or_false, false_or] at hq
  obtain ⟨-, rfl⟩ | ⟨-, rfl⟩ | ⟨-, rfl⟩ := hq
  · exact ⟨_, _, rfl⟩
  · exact ⟨_, _, rfl⟩
  · exact ⟨_, _, rfl⟩

/-- The packets of FLUSH are write packets of the codec. -/
theorem written_flushActs {fb : Memory} {q : SeqPoint} {k : Packet} (h : .send q k ∈ flushActs Config.block fb) :
    k.Written Config.block := by
  refine written_flushCalls Config.block fb q k ?_
  simpa [flushActs_eq] using h

/-- The packets of a FLUSH that has come as far as the actions `l₁` are write packets of the codec. -/
theorem written_flush_prefix {fb : Memory} {l₁ l₂ : List Act} (hl : flushActs Config.block fb = l₁ ++ l₂) {k : Packet}
    {r : TxResult} (h : .tx k r ∈ actTrace l₁) : k.Written Config.block := by
  obtain ⟨q, hq⟩ := mem_actTrace_tx l₁ k r h
  exact written_flushActs (q := q) (hl ▸ List.mem_append_left l₂ hq)

/-! ### How an operation can leave a good state -/

/-- The invariant does not speak of the inputs from outside the block. -/
theorem Inv.setInputs {s : State} (h : Inv s) (host : List HostMove) (tx : Feed TxAnswer) (dly : Feed DelayAnswer) :
    Inv { s with host := host, tx := tx, dly := dly } :=
  ⟨h.fbCanonical, h.idleMode, h.busyMode, h.selected, h.csOfTrace, h.errorData, h.written, h.farEndUninit,
    h.farEndExtended, h.farEndAtRest⟩

/-- One more response, with DATA 0 on an error. -/
theorem errorData_concat {rsp : List Response} {r : Response}
    (h : ∀ r' ∈ rsp, r'.status ≠ .ok → r'.data = 0#24) (hr : r.status ≠ .ok → r.data = 0#24) :
    ∀ r' ∈ rsp ++ [r], r'.status ≠ .ok → r'.data = 0#24 := by
  intro r' hr'
  rcases List.mem_append.1 hr' with hold | hnew
  · exact h r' hold
  · rw [List.mem_singleton.1 hnew]; exact hr

/-- An answer with no port call: FB, in canonical form, and one response. -/
theorem Inv.answered {s : State} (h : Inv s) {fb : Memory} (hfb : fb.wf) {r : Response}
    (hr : r.status ≠ .ok → r.data = 0#24) : Inv { s with fb := fb, rsp := s.rsp ++ [r] } :=
  ⟨hfb, h.idleMode, h.busyMode, h.selected, h.csOfTrace, errorData_concat h.errorData hr, h.written, h.farEndUninit,
    h.farEndExtended, h.farEndAtRest⟩

section
variable {s t : State} (h : Inv s) {events : List Event} (hfb : t.fb = s.fb) (hout : t.out = s.out ++ events)
  (hwritten : ∀ k r, .tx k r ∈ events → k.Written Config.block)
  (hcs : events.foldl Event.csAfter s.cs = t.cs)
include h hfb hout hwritten hcs

/-- INIT or FLUSH has ended: the module is released, one response is given, the observer is at rest and has seen the
initialization commands exactly if MODE is EXTGFX. -/
theorem Inv.completed {r : Response} (hbusy : t.busy = none) (hcs0 : t.cs = false) (hrsp : t.rsp = s.rsp ++ [r])
    (hr : r.status ≠ .ok → r.data = 0#24) (hrest : ((watch Config.block s.out).run events).tracked.half = .nothing)
    (hmode : t.mode = .uninit ∧ ((watch Config.block s.out).run events).tracked.link = .expects .funcBasic ∨
      t.mode = .extgfx ∧ ((watch Config.block s.out).run events).tracked.link = .extended) : Inv t where
  fbCanonical := hfb ▸ h.fbCanonical
  idleMode _ := by rcases hmode with ⟨hm, -⟩ | ⟨hm, -⟩ <;> simp [hm]
  busyMode q hq := by simp [hbusy] at hq
  selected := by rw [hcs0, hbusy]; rfl
  csOfTrace := by rw [hout, traceCs_append, ← h.csOfTrace, hcs]
  errorData := hrsp ▸ errorData_concat h.errorData hr
  written k r hk := by
    rcases List.mem_append.1 (hout ▸ hk) with hold | hnew
    · exact h.written k r hold
    · exact hwritten k r hnew
  farEndUninit _ hm := by
    rw [hout, observe_append_link]
    rcases hmode with ⟨-, hl⟩ | ⟨hm', -⟩
    · exact hl
    · simp [hm] at hm'
  farEndExtended _ hm := by
    rw [hout, observe_append_link]
    rcases hmode with ⟨hm', -⟩ | ⟨-, hl⟩
    · simp [hm] at hm'
    · exact hl
  farEndAtRest _ := by rw [hout, observe_append_half]; exact hrest

/-- INIT or FLUSH is stuck in the port call `q`: the module stays selected, MODE is the one in which the call is made,
and there is no response. -/
theorem Inv.stuck {q : SeqPoint} (hbusy : t.busy = some q) (hmode : t.mode = q.mode) (hcs1 : t.cs = true)
    (hrsp : t.rsp = s.rsp) : Inv t where
  fbCanonical := hfb ▸ h.fbCanonical
  idleMode hb := by simp [hbusy] at hb
  busyMode q' hq := by rw [hmode, Option.some.inj (hbusy.symm.trans hq)]
  selected := by rw [hcs1, hbusy]; rfl
  csOfTrace := by rw [hout, traceCs_append, ← h.csOfTrace, hcs]
  errorData := hrsp ▸ h.errorData
  written k r hk := by
    rcases List.mem_append.1 (hout ▸ hk) with hold | hnew
    · exact h.written k r hold
    · exact hwritten k r hnew
  farEndUninit hb := by simp [hbusy] at hb
  farEndExtended hb := by simp [hbusy] at hb
  farEndAtRest hb := by simp [hbusy] at hb

end

/-! ### What the observer has seen of a good state's trace -/

section
variable {s : State} (h : Inv s) (hb : s.busy = none)
include h hb

/-- In UNINIT the observer waits for the first initialization command. -/
theorem Inv.tracked_uninit (hm : s.mode = .uninit) : (watch Config.block s.out).tracked.link = .expects .funcBasic := by
  simpa [observe] using h.farEndUninit hb hm

/-- In EXTGFX the observer has seen the three initialization commands. -/
theorem Inv.tracked_extended (hm : s.mode = .extgfx) : (watch Config.block s.out).tracked.link = .extended := by
  simpa [observe] using h.farEndExtended hb hm

/-- Between operations nothing is half received. -/
theorem Inv.tracked_atRest : (watch Config.block s.out).tracked.half = .nothing := by
  simpa [observe] using h.farEndAtRest hb

end

/-! ### INIT -/

/-- The module is selected from the first event of INIT until the last. -/
theorem csAfter_initTrace_take (k : Fin 3) (b : Bool) :
    ((initTrace Config.block).take (2 * k.val + 1)).foldl Event.csAfter b = true ∧
    ((initTrace Config.block).take (2 * k.val + 3)).foldl Event.csAfter b = true := by
  match k with
  | 0 | 1 | 2 => exact ⟨rfl, rfl⟩

/-- The MODE of each of INIT's commands (43_sequencer.md R100). -/
theorem mode_initCommand (k : Fin 3) :
    (SeqPoint.initSend (initCommands.get k)).mode = (if k = 0 then .uninit else .basic) ∧
    (SeqPoint.initSettle (initCommands.get k)).mode = (if k = 0 then .uninit else .basic) := by
  match k with
  | 0 | 1 | 2 => exact ⟨rfl, rfl⟩

/-- INIT keeps the invariant. -/
theorem Inv.exec_init {s t : State} (h : Inv s) (hb : s.busy = none) (he : exec .init s = .next t) : Inv t := by
  have writtenTake : ∀ n k r, .tx k r ∈ (initTrace Config.block).take n → k.Written Config.block :=
    fun n k r hk => written_initTrace (List.mem_of_mem_take hk)
  obtain ⟨-, hx⟩ | ⟨hm, -, -, hx⟩ | ⟨k, hm, -, ⟨-, -, hx⟩ | ⟨-, -, hx⟩ | ⟨-, -, hx⟩⟩ := execInit_cases s <;>
    cases hx.symm.trans he
  case inl => exact h.answered h.fbCanonical fun _ => rfl
  case inr.inl =>
    obtain ⟨hlink, hhalf, -⟩ := watch_init _ (h.tracked_uninit hb hm)
    exact h.completed rfl rfl (fun _ _ => written_initTrace) rfl hb rfl rfl (fun _ => rfl)
      (hhalf.trans (h.tracked_atRest hb)) (.inr ⟨rfl, hlink⟩)
  case inr.inr.inl =>
    have hunknown := watch_init_cut _ (h.tracked_uninit hb hm) k (initPacket Config.block (initCommands.get k))
    refine h.completed rfl (List.append_assoc ..) (fun p r hp => ?_) ?_ hb rfl rfl (fun _ => rfl)
      (by rw [hunknown]; rfl) (.inl ⟨rfl, by rw [hunknown]; rfl⟩)
    · rcases List.mem_append.1 hp with hp | hp
      · exact writtenTake _ _ _ hp
      · simp only [List.mem_cons, Event.tx.injEq, reduceCtorEq, List.not_mem_nil, or_false] at hp
        exact ⟨_, _, hp.1⟩
    · rw [List.foldl_append]; rfl
  case inr.inr.inr.inl =>
    exact h.stuck rfl rfl (writtenTake _) (csAfter_initTrace_take k s.cs).1 rfl (mode_initCommand k).1.symm rfl rfl
  case inr.inr.inr.inr =>
    exact h.stuck rfl rfl (writtenTake _) (csAfter_initTrace_take k s.cs).2 rfl (mode_initCommand k).2.symm rfl rfl

/-! ### FLUSH -/

/-- FLUSH keeps the invariant. -/
theorem Inv.exec_flush {s t : State} (h : Inv s) (hb : s.busy = none) (he : exec .flush s = .next t) : Inv t := by
  obtain ⟨-, hx⟩ | ⟨hm, -, -, hx⟩ | ⟨l₁, q, p, l₂, hm, hl, -, -, hx⟩ | ⟨l₁, q, p, l₂, hm, hl, -, -, hq, hx⟩ |
    ⟨l₁, q, n, l₂, hm, hl, -, -, hq, hx⟩ := execFlush_cases s <;> cases hx.symm.trans he
  case inl => exact h.answered h.fbCanonical fun _ => rfl
  case inr.inl =>
    obtain ⟨hlink, hhalf, -⟩ := watch_flush s.fb _ (h.tracked_extended hb hm) (h.tracked_atRest hb)
    refine h.completed rfl rfl (fun k r hk => ?_) ?_ hb rfl rfl (fun _ => rfl) hhalf (.inr ⟨hm, hlink⟩)
    · exact written_flush_prefix (List.append_nil _).symm (actTrace_flushActs Config.block s.fb ▸ hk)
    · rw [← actTrace_flushActs, csAfter_actTrace, actCs_flushActs]
  case inr.inr.inl =>
    obtain ⟨-, -, hlink, hhalf, -⟩ := watch_flush_cut s.fb _ (h.tracked_extended hb hm) (h.tracked_atRest hb) l₁ l₂ q p
      hl [.cs false] (.inr rfl)
    refine h.completed rfl (List.append_assoc ..) (fun k r hk => ?_) ?_ hb rfl rfl (fun _ => rfl) hhalf
      (.inr ⟨hm, hlink⟩)
    · rcases List.mem_append.1 hk with hk | hk
      · exact written_flush_prefix hl hk
      · simp only [List.mem_cons, Event.tx.injEq, reduceCtorEq, List.not_mem_nil, or_false] at hk
        rw [hk.1]
        exact written_flushActs (q := q) (hl ▸ List.mem_append_right l₁ List.mem_cons_self)
    · rw [List.foldl_append]; rfl
  case inr.inr.inr.inl =>
    obtain ⟨hcs, -⟩ := flush_before_call Config.block s.fb l₁ l₂ _ rfl hl
    exact h.stuck rfl rfl (fun _ _ => written_flush_prefix hl) ((csAfter_actTrace ..).trans (hcs _)) rfl
      (hm.trans hq.symm) rfl rfl
  case inr.inr.inr.inr =>
    obtain ⟨hcs, -⟩ := flush_before_call Config.block s.fb l₁ l₂ _ rfl hl
    refine h.stuck rfl (List.append_assoc ..) (fun k r hk => ?_) ?_ rfl (hm.trans hq.symm) rfl rfl
    · rcases List.mem_append.1 hk with hk | hk
      · exact written_flush_prefix hl hk
      · simp at hk
    · rw [List.foldl_append, csAfter_actTrace, hcs]; rfl

/-! ### Every step -/

/-- The sequencer's operations are INIT and FLUSH (43_sequencer.md R99). -/
theorem sequencer_cases (i : Instr) : isSequencer i = false ∨ i = .init ∨ i = .flush := by
  cases i <;> simp [isSequencer]

/-- Every operation presented to an idle block keeps the invariant. -/
theorem Inv.exec {s t : State} (h : Inv s) (hb : s.busy = none) (i : Instr) (he : exec i s = .next t) : Inv t := by
  obtain hi | rfl | rfl := sequencer_cases i
  · obtain ⟨fb, r, hx, herror, hwf, -, -⟩ := exec_of_not_sequencer i s hi
    cases hx.symm.trans he
    exact h.answered (hwf h.fbCanonical) fun hr => (herror hr).1
  · exact h.exec_init hb he
  · exact h.exec_flush hb he

/-- Settles O47: nothing has been sent and nothing answered. -/
theorem resetSatisfiesInvariant : Obligations.ResetSatisfiesInvariant where
  fbCanonical := Memory.wf_cleared
  idleMode _ := Mode.noConfusion
  busyMode _ hq := by cases hq
  selected := rfl
  csOfTrace := rfl
  errorData _ hr := by cases hr
  written _ _ hk := by cases hk
  farEndUninit _ _ := rfl
  farEndExtended _ hm := by cases hm
  farEndAtRest _ := rfl

/-- Settles O48: by the cases of a step, the operations by `Inv.exec`. -/
theorem stepKeepsInvariant : Obligations.StepKeepsInvariant := by
  intro s t h hstep
  obtain ⟨rest, -, rfl⟩ | ⟨-, -, rfl⟩ | ⟨w, rest, i, hb, -, -, he⟩ | ⟨w, rest, r, -, -, -, rfl⟩ := step_cases hstep
  case inl => exact resetSatisfiesInvariant.setInputs rest s.tx s.dly
  case inr.inl => exact h
  case inr.inr.inl => exact (h.setInputs rest s.tx s.dly).exec hb i he
  case inr.inr.inr => exact (h.setInputs rest s.tx s.dly).answered h.fbCanonical fun _ => rfl

end Sys2Proof.Machine
end

section
/-! What each operation leaves alone: MODE (10_state.md R18), the ports (R27), FB (R16), the responses (R15); how many
responses it gives (R25), and how precise an error is (60_exceptions.md R121). -/

namespace Sys2Proof.Machine

/-! ### MODE -/

/-- FLUSH keeps MODE, refused, successful, failed or stuck (10_state.md R18). -/
theorem exec_flush_keeps_mode {s t : State} (he : exec .flush s = .next t) : t.mode = s.mode := by
  obtain ⟨-, hx⟩ | ⟨-, -, -, hx⟩ | ⟨_, _, _, _, -, -, -, -, hx⟩ | ⟨_, _, _, _, -, -, -, -, -, hx⟩ |
    ⟨_, _, _, _, -, -, -, -, -, hx⟩ := execFlush_cases s <;> cases hx.symm.trans he <;> rfl

/-- INIT changes MODE only in UNINIT, to EXTGFX with an OK, or to BASIC, where it is stuck (43_sequencer.md R100). -/
theorem mode_change_of_exec_init {s t : State} (hb : s.busy = none) (he : exec .init s = .next t)
    (hne : t.mode ≠ s.mode) : s.mode = .uninit ∧
      ((t.mode = .extgfx ∧ t.busy = none ∧ t.rsp = s.rsp ++ [⟨.ok, 0#24⟩]) ∨
        (t.mode = .basic ∧ t.busy.isSome = true ∧ t.rsp = s.rsp)) := by
  obtain ⟨-, hx⟩ | ⟨hm, -, -, hx⟩ | ⟨k, hm, -, ⟨-, -, hx⟩ | ⟨-, -, hx⟩ | ⟨-, -, hx⟩⟩ := execInit_cases s <;>
    cases hx.symm.trans he
  case inl => exact absurd rfl hne
  case inr.inl => exact ⟨hm, .inl ⟨rfl, hb, rfl⟩⟩
  case inr.inr.inl => exact absurd hm.symm hne
  all_goals
    refine ⟨hm, .inr ⟨if_neg fun hk => hne ?_, rfl, rfl⟩⟩
    rw [hm]
    exact if_pos hk

/-- Settles O49: of the operations INIT alone changes MODE. -/
theorem modeTransitions : Obligations.ModeTransitions := by
  intro s t hstep hne
  obtain ⟨rest, hh, rfl⟩ | ⟨-, -, rfl⟩ | ⟨w, rest, i, hb, hh, hd, he⟩ | ⟨w, rest, r, -, -, -, rfl⟩ := step_cases hstep
  case inl => exact .inl ⟨rest, hh, rfl⟩
  case inr.inl => exact absurd rfl hne
  case inr.inr.inr => exact absurd rfl hne
  case inr.inr.inl =>
    obtain hi | rfl | rfl := sequencer_cases i
    · obtain ⟨fb, r, hx, -⟩ := exec_of_not_sequencer i { s with host := rest } hi
      cases hx.symm.trans he
      exact absurd rfl hne
    · obtain ⟨hm, hends⟩ := mode_change_of_exec_init (s := { s with host := rest }) hb he hne
      exact .inr ⟨w, rest, hh, hd, hm, hends⟩
    · exact absurd (exec_flush_keeps_mode he) hne

/-! ### The ports and FB -/

/-- Settles O50: `exec_of_not_sequencer` gives the whole next state. -/
theorem onlySequencerDoesIo : Obligations.OnlySequencerDoesIo := by
  intro i s hi
  obtain ⟨fb, r, hx, -⟩ := exec_of_not_sequencer i s hi
  exact ⟨_, r, hx, rfl⟩

/-- INIT does the same whatever FB holds (10_state.md R27): the platform's answers fix how it ends. -/
theorem exec_init_any_fb (s : State) (fb : Memory) :
    ∃ t, exec .init s = .next t ∧ exec .init { s with fb := fb } = .next { t with fb := fb } := by
  obtain ⟨hm, hx⟩ | ⟨hm, hok, hd, hx⟩ | ⟨k, hm, hd, ⟨hok, hf, hx⟩ | ⟨hok, hf, hx⟩ | ⟨hok, hf, hx⟩⟩ := execInit_cases s
  · exact ⟨_, hx, modePreconditions.1 { s with fb := fb } hm⟩
  · exact ⟨_, hx, exec_init_done (s := { s with fb := fb }) hm hok hd⟩
  · exact ⟨_, hx, exec_init_failed (s := { s with fb := fb }) hm hd hok hf⟩
  · exact ⟨_, hx, exec_init_send_stalled (s := { s with fb := fb }) hm hd hok hf⟩
  · exact ⟨_, hx, exec_init_settle_stalled (s := { s with fb := fb }) hm hd hok hf⟩

/-- Settles O51: outside the sequencer by `exec_of_not_sequencer`, the sequencer by O41; ENCODE and XLATE name no byte
of FB. -/
theorem onlyWritersTouchFb : Obligations.OnlyWritersTouchFb := by
  refine ⟨fun i s hw => ?_, ?_⟩
  · obtain hi | rfl | rfl := sequencer_cases i
    · obtain ⟨fb, r, hx, -, -, hkeep, -⟩ := exec_of_not_sequencer i s hi
      exact ⟨_, hx, hkeep hw⟩
    · exact exec_init_keeps_fb s
    · exact exec_flush_keeps_fb s
  · rintro i s fb (rfl | ⟨v, rs, rw, rfl⟩ | ⟨r, g, rfl⟩)
    · exact exec_init_any_fb s fb
    · exact ⟨_, rfl, rfl⟩
    · simp only [exec, execXlate]
      cases wordPosition r g with
      | none => exact ⟨_, rfl, rfl⟩
      | some a => exact ⟨_, rfl, rfl⟩

/-! ### The responses -/

/-- Settles O53: `exec_context` with the host's moves and the trace kept. -/
theorem responsesAreNeverRead : Obligations.ResponsesAreNeverRead := by
  intro i s rsp
  obtain ⟨t, events, new, hexec, hhost, hout, hrsp, hcontext⟩ := exec_context i s
  refine ⟨t, new, hexec, hrsp, ?_⟩
  simpa only [State.inContext, hhost, hout] using hcontext s.host s.out rsp

/-- Settles O54: outside the sequencer one response; INIT and FLUSH answer at every end but a stuck call. -/
theorem oneResponsePerOperation : Obligations.OneResponsePerOperation := by
  intro i s hb
  obtain hi | rfl | rfl := sequencer_cases i
  · obtain ⟨fb, r, hx, herror, -⟩ := exec_of_not_sequencer i s hi
    exact ⟨_, hx, .inl ⟨hb, r, rfl, fun hr => (herror hr).1⟩⟩
  · obtain ⟨-, hx⟩ | ⟨-, -, -, hx⟩ | ⟨k, -, -, ⟨-, -, hx⟩ | ⟨-, -, hx⟩ | ⟨-, -, hx⟩⟩ := execInit_cases s
    · exact ⟨_, hx, .inl ⟨hb, _, rfl, fun _ => rfl⟩⟩
    · exact ⟨_, hx, .inl ⟨hb, _, rfl, fun _ => rfl⟩⟩
    · exact ⟨_, hx, .inl ⟨hb, _, rfl, fun _ => rfl⟩⟩
    · exact ⟨_, hx, .inr ⟨rfl, rfl, rfl⟩⟩
    · exact ⟨_, hx, .inr ⟨rfl, rfl, rfl⟩⟩
  · obtain ⟨-, hx⟩ | ⟨-, -, -, hx⟩ | ⟨_, _, _, _, -, -, -, -, hx⟩ | ⟨_, _, _, _, -, -, -, -, -, hx⟩ |
      ⟨_, _, _, _, -, -, -, -, -, hx⟩ := execFlush_cases s
    · exact ⟨_, hx, .inl ⟨hb, _, rfl, fun _ => rfl⟩⟩
    · exact ⟨_, hx, .inl ⟨hb, _, rfl, fun _ => rfl⟩⟩
    · exact ⟨_, hx, .inl ⟨hb, _, rfl, fun _ => rfl⟩⟩
    · exact ⟨_, hx, .inr ⟨rfl, rfl, rfl⟩⟩
    · exact ⟨_, hx, .inr ⟨rfl, rfl, rfl⟩⟩

/-! ### Errors -/

/-- The last response of two equal lists. -/
theorem response_of_concat_eq {rsp : List Response} {r r' : Response} (h : rsp ++ [r] = rsp ++ [r']) : r = r' :=
  List.singleton_inj.1 (List.append_cancel_left h)

/-- What the operation `i` leaves of `s` when it answers the error `e` (60_exceptions.md R121). -/
def PreciseError (i : Instr) (s t : State) (e : Status) (d : Data) : Prop :=
  d = 0#24 ∧ t.fb = s.fb ∧ t.mode = s.mode ∧ t.busy = none ∧ t.host = s.host ∧
    (i = .init → e = .transportError → t.mode = .uninit) ∧
    ((e ≠ .transportError ∧ t.out = s.out ∧ t.cs = s.cs) ∨
      (e = .transportError ∧ isSequencer i = true ∧ t.cs = false ∧ ∃ events k,
        t.out = s.out ++ events ++ [.tx k .fail, .cs false] ∧ ∀ k', .tx k' .fail ∉ events))

section
variable {s t : State} {e : Status} {d : Data} (hb : s.busy = none) (hrsp : t.rsp = s.rsp ++ [⟨e, d⟩]) (hne : e ≠ .ok)
include hb hrsp hne

/-- Outside the sequencer an error changes nothing but the responses. -/
theorem preciseError_of_not_sequencer {i : Instr} (hi : isSequencer i = false) (he : exec i s = .next t) :
    PreciseError i s t e d := by
  obtain ⟨fb, r, hx, herror, -, -, htransport⟩ := exec_of_not_sequencer i s hi
  cases hx.symm.trans he
  cases response_of_concat_eq hrsp
  obtain ⟨hd, hfb⟩ := herror hne
  exact ⟨hd, hfb, rfl, hb, rfl, fun _ ht => absurd ht htransport, .inl ⟨htransport, rfl, rfl⟩⟩

/-- An error of INIT: refused, or a command failed. -/
theorem preciseError_init (he : exec .init s = .next t) : PreciseError .init s t e d := by
  obtain ⟨-, hx⟩ | ⟨-, -, -, hx⟩ | ⟨k, hm, -, ⟨-, -, hx⟩ | ⟨-, -, hx⟩ | ⟨-, -, hx⟩⟩ := execInit_cases s <;>
    cases hx.symm.trans he
  case inl =>
    cases response_of_concat_eq hrsp
    exact ⟨rfl, rfl, rfl, hb, rfl, fun _ => nofun, .inl ⟨nofun, rfl, rfl⟩⟩
  case inr.inl =>
    cases response_of_concat_eq hrsp
    exact absurd rfl hne
  case inr.inr.inl =>
    cases response_of_concat_eq hrsp
    have noFail : ∀ p, .tx p .fail ∉ (initTrace Config.block).take (2 * k.val + 1) := fun p hp =>
      fail_not_mem_actTrace (initActs Config.block) p (List.mem_of_mem_take hp)
    exact ⟨rfl, rfl, hm.symm, hb, rfl, fun _ _ => rfl, .inr ⟨rfl, rfl, rfl, _, _, rfl, noFail⟩⟩
  all_goals exact absurd hrsp (by simp)

/-- An error of FLUSH: refused, or a packet failed. -/
theorem preciseError_flush (he : exec .flush s = .next t) : PreciseError .flush s t e d := by
  obtain ⟨-, hx⟩ | ⟨-, -, -, hx⟩ | ⟨l₁, q, p, l₂, -, -, -, -, hx⟩ | ⟨_, _, _, _, -, -, -, -, -, hx⟩ |
    ⟨_, _, _, _, -, -, -, -, -, hx⟩ := execFlush_cases s <;> cases hx.symm.trans he
  case inl =>
    cases response_of_concat_eq hrsp
    exact ⟨rfl, rfl, rfl, hb, rfl, nofun, .inl ⟨nofun, rfl, rfl⟩⟩
  case inr.inl =>
    cases response_of_concat_eq hrsp
    exact absurd rfl hne
  case inr.inr.inl =>
    cases response_of_concat_eq hrsp
    exact ⟨rfl, rfl, rfl, hb, rfl, nofun, .inr ⟨rfl, rfl, rfl, _, _, rfl, fail_not_mem_actTrace l₁⟩⟩
  all_goals exact absurd hrsp (by simp)

end

/-- Settles O55: outside the sequencer, INIT, FLUSH. -/
theorem errorsArePrecise : Obligations.ErrorsArePrecise := by
  intro i s t e d hb he hrsp hne
  obtain hi | rfl | rfl := sequencer_cases i
  · exact preciseError_of_not_sequencer hb hrsp hne hi he
  · exact preciseError_init hb hrsp hne he
  · exact preciseError_flush hb hrsp hne he

end Sys2Proof.Machine
end

section
/-! Runs of the host's moves (70_reset_and_hazards.md R143), and the pseudo-operations RAW_BYTES, DRAW and CONSTRUCT
(30_encoding.md R65 to R67). -/

namespace Sys2Proof.Machine

/-! ### Runs -/

/-- A run that is over leaves the block idle, with no move left. -/
theorem idle_of_endOfRun {s t : State} (h : endOfRun s = .next t) : t = s ∧ s.busy = none := by
  cases hb : s.busy with
  | none => exact ⟨Host.Outcome.next.inj (h.symm.trans (endOfRun_idle s hb)), rfl⟩
  | some q => cases h.symm.trans (endOfRun_busy s q hb)

/-- The host's run over one step that goes on. -/
theorem coreRun_of_next {M : Host.Core} {s t : M.State} (h : M.step s = .next t) (k : Nat) :
    M.run (k + 1) s = M.run k t := by
  simp only [Host.Core.run, h]

/-- The host's run over a step that stops. -/
theorem coreRun_of_fault {M : Host.Core} {s : M.State} {f : M.Fault} (h : M.step s = .fault f) (k : Nat) :
    M.run (k + 1) s = .fault f := by
  simp only [Host.Core.run, h]

/-- Settles O12: by induction on the moves; the step on a move does not depend on the moves after it (`step_moves`). -/
theorem runIsIteratedStep : Obligations.RunIsIteratedStep := by
  intro moves
  induction moves with
  | nil =>
    intro s hh
    have hs : { s with host := [] } = s := by rw [← hh]
    refine ⟨by simp only [List.length_nil, Host.Core.run, hs, runMoves_nil], fun t ht => ?_⟩
    obtain ⟨rfl, hb⟩ := idle_of_endOfRun ht
    exact ⟨hb, hh⟩
  | cons m ms ih =>
    intro s _
    obtain ⟨u, hone, huh, hall⟩ | ⟨f, hone, hall⟩ := step_moves m ms s
    · obtain ⟨hrun, hover⟩ := ih u huh
      have hfirst : runMoves (m :: ms) s = runMoves ms u := by rw [runMoves, hone]
      refine ⟨?_, fun t ht => hover t (hfirst.symm.trans ht)⟩
      rw [hfirst, List.length_cons, coreRun_of_next (M := core) hall]
      exact hrun
    · have hfirst : runMoves (m :: ms) s = .fault f := by rw [runMoves, hone]
      refine ⟨?_, fun t ht => by cases hfirst.symm.trans ht⟩
      rw [hfirst, List.length_cons, coreRun_of_fault (M := core) hall]

/-- A run of no operation is over at once. -/
theorem runOps_nil {s : State} (hb : s.busy = none) : runOps [] s = .next s := endOfRun_idle s hb

/-- A run whose first operation is one a command word can carry. -/
theorem runOps_cons {i : Instr} (ops : List Instr) {s t : State} (hwf : i.WellFormed) (hb : s.busy = none)
    (hh : s.host = []) (he : exec i s = .next t) : runOps (i :: ops) s = runOps ops t := by
  have hs : { s with host := [] } = s := by rw [← hh]
  rw [runOps, present_cons_of_wf ops hwf]
  exact runMoves_command (present ops) hb (decodeOfEncode i hwf) (hs ▸ he)

/-! ### RAW_BYTES -/

/-- RAW_READ of a list of indices. -/
theorem runOps_rawReads (indices : List ByteIndex) (s : State) (hb : s.busy = none) (hh : s.host = []) :
    runOps (indices.map fun i => .rawRead i.val) s = .next { s with
      rsp := s.rsp ++ indices.map fun i => ⟨.ok, (memRead1 s.fb i).setWidth 24⟩ } := by
  induction indices generalizing s with
  | nil => simpa using runOps_nil hb
  | cons i indices ih =>
    have hwf : (Instr.rawRead i.val).WellFormed := decide_eq_true (by omega : i.val < 65536)
    rw [List.map_cons, runOps_cons _ hwf hb hh (exec_rawRead_coe i s)]
    exact (ih { s with rsp := s.rsp ++ [⟨.ok, (memRead1 s.fb i).setWidth 24⟩] } hb hh).trans (by simp)

/-- Settles O27: RAW_BYTES is RAW_READ of all the indices in order. -/
theorem rawBytesReadsWholeFb : Obligations.RawBytesReadsWholeFb := by
  intro s hb hh
  have hall : rawBytes = (List.finRange 1024).map fun i => .rawRead i.val := by
    rw [rawBytes, ← List.map_coe_finRange_eq_range, List.map_map]
    rfl
  rw [hall]
  exact runOps_rawReads (List.finRange 1024) s hb hh

/-! ### DRAW -/

/-- What a pixel is after the items: as its last item says, or as before. -/
def drawnPixel (items : List DrawItem) (c : Column) (r : Row) (before : Bool) : Bool :=
  match items.reverse.find? (fun d => d.x = (c.val : Int) ∧ d.y = (r.val : Int)) with
  | some d => d.on
  | none => before

theorem drawnPixel_cons (d : DrawItem) (items : List DrawItem) (c : Column) (r : Row) (before : Bool) :
    drawnPixel (d :: items) c r before =
      drawnPixel items c r (if d.x = (c.val : Int) ∧ d.y = (r.val : Int) then d.on else before) := by
  unfold drawnPixel
  rw [List.reverse_cons, List.find?_append]
  cases items.reverse.find? (fun d => d.x = (c.val : Int) ∧ d.y = (r.val : Int)) with
  | some d' => rfl
  | none => by_cases h : d.x = (c.val : Int) ∧ d.y = (r.val : Int) <;> simp [h]

/-- An item is presented exactly when its coordinates fit their fields (30_encoding.md R53). -/
theorem drawOp_wellFormed_iff (d : DrawItem) : d.op.WellFormed ↔ Sext16 d.x ∧ Sext16 d.y := by
  obtain ⟨x, y, on⟩ := d
  cases on <;> exact decide_eq_true_iff

/-- An item off the canvas is no pixel's. -/
theorem not_pixel_of_offCanvas {x y : Int} (h : ¬InRange x y) (c : Column) (r : Row) :
    ¬(x = (c.val : Int) ∧ y = (r.val : Int)) := fun ⟨hx, hy⟩ => h (by omega)

/-- One item: its pixel as it says, every other as before, an OK, nothing else (40_framebuffer.md R77). -/
theorem exec_drawOp (d : DrawItem) (s : State) : ∃ fb,
    exec d.op s = .next { s with fb := fb, rsp := s.rsp ++ [⟨.ok, 0#24⟩] } ∧
    ∀ c r, pixel fb c r = if d.x = (c.val : Int) ∧ d.y = (r.val : Int) then d.on else pixel s.fb c r := by
  obtain ⟨x, y, on⟩ := d
  by_cases h : InRange x y
  · obtain ⟨c, rfl⟩ : ∃ c : Column, (c.val : Int) = x := ⟨column x (by omega), Int.toNat_of_nonneg (by omega)⟩
    obtain ⟨r, rfl⟩ : ∃ r : Row, (r.val : Int) = y := ⟨row y (by omega), Int.toNat_of_nonneg (by omega)⟩
    refine ⟨_, exec_drawPixel c r on s, fun c' r' => ?_⟩
    rw [pixel_drawPixel]
    refine if_congr ?_ rfl rfl
    simp only [Prod.mk.injEq, Fin.ext_iff]
    omega
  · obtain ⟨hset, hclear, -⟩ := offCanvasIgnored x y s h
    refine ⟨s.fb, ?_, fun c r => (if_neg (not_pixel_of_offCanvas h c r)).symm⟩
    cases on
    · exact hclear
    · exact hset

/-- A DRAW, item by item. -/
theorem runOps_draw (items : List DrawItem) (s : State) (hb : s.busy = none) (hh : s.host = []) : ∃ fb,
    runOps (draw items) s = .next { s with
      fb := fb, rsp := s.rsp ++ List.replicate (present (draw items)).length ⟨.ok, 0#24⟩ } ∧
    ∀ c r, pixel fb c r = drawnPixel items c r (pixel s.fb c r) := by
  induction items generalizing s with
  | nil => exact ⟨s.fb, by simpa [draw, present] using runOps_nil hb, fun _ _ => rfl⟩
  | cons d items ih =>
    have hcons : draw (d :: items) = d.op :: draw items := rfl
    simp only [drawnPixel_cons]
    by_cases hwf : d.op.WellFormed
    · obtain ⟨fb', hexec, hone⟩ := exec_drawOp d s
      obtain ⟨fb, hrun, hpixels⟩ := ih { s with fb := fb', rsp := s.rsp ++ [⟨.ok, 0#24⟩] } hb hh
      refine ⟨fb, ?_, fun c r => by rw [hpixels, hone]⟩
      rw [hcons, runOps_cons _ hwf hb hh hexec, hrun, present_cons_of_wf _ hwf]
      simp [List.replicate_succ]
    · obtain ⟨fb, hrun, hpixels⟩ := ih s hb hh
      have hoff : ¬InRange d.x d.y := fun h => hwf ((drawOp_wellFormed_iff d).2 (by omega))
      refine ⟨fb, ?_, fun c r => by rw [hpixels, if_neg (not_pixel_of_offCanvas hoff c r)]⟩
      rw [hcons, runOps, present_cons_of_not_wf _ hwf]
      exact hrun

/-- Settles O26: `runOps_draw`, by induction on the items; every item that fits its fields is presented. -/
theorem drawAppliesItemsInOrder : Obligations.DrawAppliesItemsInOrder := by
  intro items s hb hh
  obtain ⟨fb, hrun, hpixels⟩ := runOps_draw items s hb hh
  refine ⟨_, hrun, hpixels, rfl, fun hfit => ?_⟩
  have hall : ∀ i ∈ draw items, i.wellFormed = true := by
    intro i hi
    obtain ⟨d, hd, rfl⟩ := List.mem_map.1 hi
    exact (drawOp_wellFormed_iff d).2 (hfit d hd)
  rw [present, List.filter_eq_self.2 hall, List.length_map, draw, List.length_map]

/-! ### CONSTRUCT -/

/-- The block after a reset with no further move of the host, the platform as it was (log 19). -/
def State.afterReset (s : State) : State := { State.reset with tx := s.tx, dly := s.dly }

/-- CONSTRUCT is INIT right after a reset (43_sequencer.md R108). -/
theorem runMoves_construct {s t : State} (he : exec .init s.afterReset = .next t) (ms : List HostMove) :
    runMoves (construct ++ ms) s = runMoves ms t :=
  (runMoves_reset _ s).trans (runMoves_command (s := s.afterReset) ms rfl (decodeOfEncode .init rfl) he)

/-- CONSTRUCT alone. -/
theorem runMoves_construct_over {s t : State} (he : exec .init s.afterReset = .next t) (hb : t.busy = none) :
    runMoves construct s = .next t :=
  (runMoves_construct he []).trans (endOfRun_idle t hb)

/-- Settles O46: the reset state, then INIT as `exec_init_done` and `exec_init_failed` have it. -/
theorem constructResult : Obligations.ConstructResult := by
  refine ⟨fun s hok hd => ?done, fun s k hok hd hf => ?failed⟩
  case done =>
    obtain ⟨-, -, hflushed⟩ := watch_init .start rfl
    exact ⟨_, runMoves_construct_over (exec_init_done (s := s.afterReset) rfl hok hd) rfl, memRead1_cleared, rfl, rfl,
      rfl, rfl, rfl, FarEnd.panel_of_not_flushed _ hflushed⟩
  case failed =>
    exact ⟨_, runMoves_construct_over (exec_init_failed (s := s.afterReset) rfl hd hok hf) rfl, memRead1_cleared, rfl,
      rfl, rfl, rfl⟩

end Sys2Proof.Machine
end

section
/-! The far end (20_memory.md R46 to R49; 43_sequencer.md R112): what the panel shows after a FLUSH that answers OK,
that fails, that is stuck, that is retried, and after boot. -/

namespace Sys2Proof.Machine

/-! ### A FLUSH that answers OK -/

section
variable {s : State} (h : Inv s) (hb : s.busy = none) (hm : s.mode = .extgfx)
include h hb hm

/-- After a FLUSH that answers OK the graphics RAM holds FB word for word, and the panel shows it
(43_sequencer.md R112). -/
theorem observe_flush :
    (∀ r g, (observe Config.block (s.out ++ flushTrace Config.block s.fb)).gd (xlate r g).1 (xlate r g).2 =
      some (wordAt s.fb r g)) ∧
    ∀ c r, (observe Config.block (s.out ++ flushTrace Config.block s.fb)).panel c r = some (pixel s.fb c r) := by
  obtain ⟨-, -, hflushed, hwords⟩ := watch_flush s.fb _ (h.tracked_extended hb hm) (h.tracked_atRest hb)
  rw [observe, watch_append]
  refine ⟨fun r g => ?_, FarEnd.panel_of_words _ s.fb hflushed hwords⟩
  rw [FarEnd.known_of_flushed _ hflushed, hwords]

/-- After a FLUSH cut short in a packet of row `r` the rows before `r` show FB and the rows after it are as they were,
if a FLUSH had answered OK before; otherwise nothing is known (43_sequencer.md R104, U8). -/
theorem panel_of_flush_cut {l₁ l₂ : List Act} {q : SeqPoint} {k : Packet} {r : Row}
    (hl : flushActs Config.block s.fb = l₁ ++ .send q k :: l₂) (hrow : sends l₁ / 18 = r.val) {rest : List Event}
    (hrest : rest = [] ∨ rest = [.cs false]) :
    ((observe Config.block s.out).flushed = true →
      (∀ c y, y < r → (observe Config.block (s.out ++ (actTrace l₁ ++ .tx k .fail :: rest))).panel c y =
        some (pixel s.fb c y)) ∧
      ∀ c y, r < y → (observe Config.block (s.out ++ (actTrace l₁ ++ .tx k .fail :: rest))).panel c y =
        (observe Config.block s.out).panel c y) ∧
    ((observe Config.block s.out).flushed = false →
      ∀ c y, (observe Config.block (s.out ++ (actTrace l₁ ++ .tx k .fail :: rest))).panel c y = none) := by
  obtain ⟨r', hr', -, -, hflushed, hwords⟩ := watch_flush_cut s.fb _ (h.tracked_extended hb hm) (h.tracked_atRest hb) l₁
    l₂ q k hl rest hrest
  obtain rfl : r' = r := Fin.ext (hr'.symm.trans hrow)
  rw [observe, observe, watch_append, FarEnd.known_flushed]
  exact FarEnd.panel_of_cut _ _ s.fb r' hflushed hwords

end

/-- Settles O56: the run to its end by O37, what the observer sees of it by `observe_flush`. -/
theorem panelShowsFramebuffer : Obligations.PanelShowsFramebuffer := by
  intro s h hb hm hok hd
  obtain ⟨hwords, hpanel⟩ := observe_flush h hb hm
  exact ⟨_, exec_flush_done hm hok hd, rfl, rfl, hwords, hpanel⟩

/-! ### A FLUSH cut short -/

/-- No part of a FLUSH makes more `Delay` calls than the whole. -/
theorem delays_le_flushDelays {p : Params} {fb : Memory} {l₁ l₂ : List Act} (hl : flushActs p fb = l₁ ++ l₂) :
    delays l₁ ≤ flushDelays p := by
  rw [← delays_flushActs p fb, hl, delays_append]
  omega

/-- Settles O57: packet `j` of row `r` is packet `18 r + j` of FLUSH. -/
theorem failedFlushLeavesMixedPanel : Obligations.FailedFlushLeavesMixedPanel := by
  intro s r j h hb hm hok hd hf
  have hlt : 18 * r.val + j.val < (actPackets (flushActs Config.block s.fb)).length := by
    rw [length_actPackets, sends_flushActs]
    omega
  obtain ⟨l₁, q, l₂, hl, hsends⟩ := exists_send _ _ _ (List.getElem?_eq_getElem hlt)
  have hrow : sends l₁ / 18 = r.val := by omega
  rw [← hsends] at hok hf
  have hanswered : s.ActsAnswered l₁ := ⟨hok, fun n hn => hd n (lt_of_lt_of_le hn (delays_le_flushDelays hl))⟩
  refine ⟨_, exec_flush_failed hm hanswered hl hf, rfl, rfl, ?_⟩
  have hpanel := panel_of_flush_cut h hb hm hl hrow (rest := [.cs false]) (.inr rfl)
  rwa [← List.append_assoc] at hpanel

/-- What may have been sent by a block stuck in a `TxWrite` (log 21). -/
theorem farEnd_of_busy {p : Params} {s : State} {q : SeqPoint} {k : Packet} (hb : s.busy = some q)
    (hk : q.packet p s.fb = some k) : s.farEnd p = observe p (s.out ++ [.tx k .fail]) := by
  simp [State.farEnd, State.sent, State.pendingPacket, hb, hk]

/-- Settles O58: the far end of a block stuck in a `TxWrite` is that of a FLUSH cut short there. -/
theorem stalledFlushLeavesMixedPanel : Obligations.StalledFlushLeavesMixedPanel := by
  intro s q r h hb hm hq hpacket hrow hok hd hf
  obtain ⟨k, hk⟩ := Option.ne_none_iff_exists'.1 hpacket
  obtain ⟨l₁, l₂, hl⟩ := exists_flush_send Config.block s.fb q k hq hk
  obtain ⟨-, hsends, hdelays⟩ := flush_send_point Config.block s.fb l₁ l₂ q k hl
  rw [hsends] at hrow hok hf
  rw [hdelays] at hd
  obtain ⟨t, he, hbusy, hfb, hout⟩ : ∃ t, exec .flush s = .next t ∧ t.busy = some q ∧ t.fb = s.fb ∧
    t.out = s.out ++ actTrace l₁ := ⟨_, exec_flush_send_stalled hm ⟨hok, hd⟩ hl hf, rfl, rfl, rfl⟩
  refine ⟨t, he, hbusy, ?_⟩
  rw [farEnd_of_busy hbusy (hfb ▸ hk), hout, List.append_assoc]
  exact panel_of_flush_cut h hb hm hl hrow (.inl rfl)

/-! ### The next FLUSH, and the first -/

/-- Settles O59: an error is precise (O55) and a good state stays one (O48), so O37 and `observe_flush` hold of the
second FLUSH. -/
theorem retriedFlushConverges : Obligations.RetriedFlushConverges := by
  intro s t h hb hm he hrsp hok hd
  obtain ⟨-, hfb, hmode, hbusy, -⟩ := errorsArePrecise .flush s t _ _ hb he hrsp nofun
  have hm' : t.mode = .extgfx := hmode.trans hm
  obtain ⟨-, hpanel⟩ := observe_flush (h.exec_flush hb he) hbusy hm'
  rw [hfb] at hpanel
  refine ⟨_, exec_flush_done hm' hok hd, hfb, rfl, by rw [hfb], ?_⟩
  rwa [hfb]

/-- The platform's coming answers, once `k` calls of the transport and `n` of the delay port have been made. -/
theorem answers_after {s t : State} {k n : Nat} (htx : t.tx = s.tx.after k) (hdly : t.dly = s.dly.after n) (j : Nat) :
    t.txAnswer j = s.txAnswer (k + j) ∧ t.delayAnswer j = s.delayAnswer (n + j) := by
  rw [State.txAnswer, State.delayAnswer, htx, hdly, Feed.answerAt_after, Feed.answerAt_after]
  exact ⟨rfl, rfl⟩

/-- Settles O60: CONSTRUCT leaves a good state in EXTGFX with an empty FB, and the FLUSH after it shows that. -/
theorem firstFlushBlanksPanel : Obligations.FirstFlushBlanksPanel := by
  intro s hok hd
  obtain ⟨t, hinit, hm, hb, hh, hfb, hrsp, htx, hdly⟩ : ∃ t, exec .init s.afterReset = .next t ∧ t.mode = .extgfx ∧
      t.busy = none ∧ t.host = [] ∧ t.fb = Memory.cleared ∧ t.rsp = [⟨.ok, 0#24⟩] ∧ t.tx = s.tx.after 3 ∧
      t.dly = s.dly.after 3 :=
    ⟨_, exec_init_done (s := s.afterReset) rfl (fun k hk => hok k (by omega)) fun k hk => hd k (by omega), rfl, rfl,
      rfl, rfl, rfl, rfl, rfl⟩
  have hgood : Inv t := (resetSatisfiesInvariant.setInputs [] s.tx s.dly).exec_init rfl hinit
  have htransport : t.TransportOk 1152 := fun k hk => by rw [(answers_after htx hdly k).1, hok _ (by omega)]
  have hdelays : t.DelaysReturn (flushDelays Config.block) := fun k hk => by
    rw [(answers_after htx hdly k).2, hd _ (by omega)]
  obtain ⟨-, hpanel⟩ := observe_flush hgood hb hm
  have hflush := (runOps_cons [] rfl hb hh (exec_flush_done hm htransport hdelays)).trans (runOps_nil hb)
  refine ⟨_, (runMoves_construct hinit _).trans hflush, by rw [hrsp]; rfl, fun c r => ?_⟩
  rw [hpanel, hfb, pixel_cleared]

end Sys2Proof.Machine
end
